-- ==== Sys2Proof/Word.lean ====
section
/-! DEFINITION. The word types of the EAN8 codec block (spec/00_scope.md R12, R17): plain names for bit widths. -/

namespace Sys2Proof

/-- The host data word, `XLEN` = 32 bits (R65). -/
abbrev Word := BitVec 32

/-- A command word `cw` (R90). -/
abbrev CmdWord := BitVec 16

/-- One register of `IDBUF` or `OUTID`, one cell of `TXT` (R30, R32, R37). -/
abbrev Byte := BitVec 8

/-- One cell of `PIX` (R36): 1 is a bar, 0 a space or quiet zone. -/
abbrev Bit := BitVec 1

/-- A pattern of seven modules; bit 6 is the first module (R140). -/
abbrev Pattern := BitVec 7

/-- The value of a decimal digit, 0..9 (R121). -/
abbrev Digit := Fin 10

end Sys2Proof
end

