-- ==== Sys2Proof/Config.lean ====
section
/-! DEFINITION. What is fixed for one block (spec/00_scope.md R11, R12) and the free values: the content of memory
cells that the spec leaves unspecified (spec/10_state.md R40, spec/93_implementation_defined.md U14). -/

namespace Sys2Proof

/-- `LAYOUT` (R11): two values are admitted and no other. -/
inductive Layout where
  /-- `L62` = (3, 0): three modules of centre guard, no end guard. The default. -/
  | l62
  /-- `L67` = (5, 3): five modules of centre guard, three of end guard. -/
  | l67
deriving DecidableEq, Repr

/-- The open parameters of a block (R11, R12). `PIX_CAP` and `TXT_CAP` are below 2^24, so that every dimension and
every text length that passes a capacity test fits its 24-bit register (R18, R183, R248). DESIGN CHOICE: log entry 3. -/
structure Config where
  /-- `LAYOUT` -/
  layout : Layout
  /-- `HAS_BMC` -/
  hasBmc : Bool
  /-- `PIX_CAP`, bits in `PIX` -/
  pixCap : Fin 16777216
  /-- `TXT_CAP`, bytes in `TXT` -/
  txtCap : Fin 16777216
deriving DecidableEq, Repr

/-- The values the spec takes: `L62`, `HAS_BMC` = 1, `PIX_CAP` = 2^20, `TXT_CAP` = 2·`PIX_CAP` + 32 (R11, R12). -/
def Config.standard : Config :=
  { layout := .l62, hasBmc := true, pixCap := 1048576, txtCap := 2097184 }

/-- FREE VALUE: the bit an unwritten cell of `PIX` holds, by the reset after which it was drawn and its address
(R40, R321, U14): any value, fixed until the cell is written or the block is reset. Log entry 2. -/
opaque Config.freePix : Nat → Nat → Bit

/-- FREE VALUE: the byte an unwritten cell of `TXT` holds, likewise (R40, R321, U14). Log entry 2. -/
opaque Config.freeTxt : Nat → Nat → Byte

end Sys2Proof
end

