-- ==== Sys2Proof/Syntax.lean ====
section
/-! DEFINITION. The eleven commands, one constructor per row of spec/opcode_table.json (spec/30_encoding.md R94). -/

namespace Sys2Proof

/-- The commands (R94). The only operands inside a command word are `d` and `pat` (R95). -/
inductive Instr where
  /-- `CHK`: compute the check digit (R123) -/
  | chk
  /-- `VAL`: validate the identifier (R125) -/
  | val
  /-- `LPAT d`: left pattern of a digit (R143) -/
  | lpat (d : BitVec 4)
  /-- `RPAT d`: right pattern of a digit (R144) -/
  | rpat (d : BitVec 4)
  /-- `LREV pat`: reverse lookup in the left table (R146) -/
  | lrev (pat : Pattern)
  /-- `RREV pat`: reverse lookup in the right table (R147) -/
  | rrev (pat : Pattern)
  /-- `UREV pat`: reverse lookup in both tables (R148) -/
  | urev (pat : Pattern)
  /-- `ENC`: draw the identifier into `PIX` (R171) -/
  | enc
  /-- `DEC`: recover the identifier from `PIX` (R201) -/
  | dec
  /-- `BMW`: write the matrix as text (R233) -/
  | bmw
  /-- `BMR`: read a matrix from text (R240) -/
  | bmr
deriving DecidableEq, Repr

end Sys2Proof
end

