-- ==== Sys2Proof/WellFormed.lean ====
section
/-! DEFINITION. Which commands a block of a given configuration has a word for (spec/30_encoding.md R92, R97). -/

namespace Sys2Proof

/-- R92: the operand of `LPAT` and `RPAT` is at most 9. R97: `BMW` and `BMR` exist only when `HAS_BMC` = 1. -/
def Instr.wellFormed (cfg : Config) : Instr → Bool
  | .lpat d | .rpat d => decide (d.toNat ≤ 9)
  | .bmw | .bmr => cfg.hasBmc
  | .chk | .val | .lrev _ | .rrev _ | .urev _ | .enc | .dec => true

end Sys2Proof
end

