-- ==== Sys2Proof/Decode.lean ====
section
/-! DEFINITION. Decoding of command words, total, and the encoder (spec/30_encoding.md R90 to R98). -/

namespace Sys2Proof

/-- Why a word is illegal (R97). All of these lead to the one error kind `E_ILLEGAL` (R98, R278). -/
inductive DecodeError where
  /-- `op` is none of the eleven codes -/
  | unknownOp
  /-- `op` is 0x30 or 0x31 and `HAS_BMC` = 0 -/
  | unitAbsent
  /-- format `N` with `arg` not 0 (R91) -/
  | argNotZero
  /-- format `D` with `arg[7:4]` not 0 (R92), or format `P` with `arg[7]` not 0 (R93) -/
  | reservedBits
  /-- format `D` with `d` above 9 (R92) -/
  | digitAboveNine
deriving DecidableEq, Repr

/-- `cw[15:8]` = `op`, the command code (R90). -/
def opField (cw : CmdWord) : BitVec 8 := cw.extractLsb' 8 8

/-- `cw[7:0]` = `arg`, the operand field (R90). -/
def argField (cw : CmdWord) : BitVec 8 := cw.extractLsb' 0 8

/-- Format `N` (R91): no operand. -/
def formatN (arg : BitVec 8) (i : Instr) : Except DecodeError Instr :=
  if arg = 0 then .ok i else .error .argNotZero

/-- Format `D` (R92): `arg[7:4]` must be 0, `arg[3:0]` is a digit. -/
def formatD (arg : BitVec 8) (mk : BitVec 4 → Instr) : Except DecodeError Instr :=
  if arg.extractLsb' 4 4 ≠ 0 then .error .reservedBits
  else if 9 < (arg.extractLsb' 0 4).toNat then .error .digitAboveNine
  else .ok (mk (arg.extractLsb' 0 4))

/-- Format `P` (R93): `arg[7]` must be 0, `arg[6:0]` is a pattern. -/
def formatP (arg : BitVec 8) (mk : Pattern → Instr) : Except DecodeError Instr :=
  if arg.extractLsb' 7 1 ≠ 0 then .error .reservedBits else .ok (mk (arg.extractLsb' 0 7))

/-- Format `N` of the unit `BMC`, whose codes exist only when `HAS_BMC` = 1 (R97). -/
def formatBmc (cfg : Config) (arg : BitVec 8) (i : Instr) : Except DecodeError Instr :=
  if cfg.hasBmc then formatN arg i else .error .unitAbsent

/-- The command a word stands for, or why it is illegal (R94, R97, R98). -/
def decode (cfg : Config) (cw : CmdWord) : Except DecodeError Instr :=
  let arg := argField cw
  if opField cw = 0x01 then formatN arg .chk
  else if opField cw = 0x02 then formatN arg .val
  else if opField cw = 0x10 then formatD arg .lpat
  else if opField cw = 0x11 then formatD arg .rpat
  else if opField cw = 0x12 then formatP arg .lrev
  else if opField cw = 0x13 then formatP arg .rrev
  else if opField cw = 0x14 then formatP arg .urev
  else if opField cw = 0x20 then formatN arg .enc
  else if opField cw = 0x21 then formatN arg .dec
  else if opField cw = 0x30 then formatBmc cfg arg .bmw
  else if opField cw = 0x31 then formatBmc cfg arg .bmr
  else .error .unknownOp

/-- The column `match` of R94. -/
def Instr.rowMatch : Instr → CmdWord
  | .chk => 0x0100
  | .val => 0x0200
  | .lpat _ => 0x1000
  | .rpat _ => 0x1100
  | .lrev _ => 0x1200
  | .rrev _ => 0x1300
  | .urev _ => 0x1400
  | .enc => 0x2000
  | .dec => 0x2100
  | .bmw => 0x3000
  | .bmr => 0x3100

/-- The column `mask` of R94. -/
def Instr.rowMask : Instr → CmdWord
  | .chk | .val | .enc | .dec | .bmw | .bmr => 0xFFFF
  | .lpat _ | .rpat _ => 0xFFF0
  | .lrev _ | .rrev _ | .urev _ => 0xFF80

/-- The operand of a word, in place: `d` = `cw[3:0]`, `pat` = `cw[6:0]`, used as they stand (R95). -/
def Instr.operandBits : Instr → CmdWord
  | .lpat d | .rpat d => d.setWidth 16
  | .lrev pat | .rrev pat | .urev pat => pat.setWidth 16
  | .chk | .val | .enc | .dec | .bmw | .bmr => 0

/-- The command word of a command, `match` + operand (R94, R104). -/
def encode (i : Instr) : CmdWord := i.rowMatch + i.operandBits

/-- The instruction the decoder reads from a word of spec/opcode_table.json's numbering, for the parameter values the
spec takes. Every row has one 16-bit word. -/
def decodeTableWord (nbits w : Nat) : Option Instr :=
  (decode Config.standard (BitVec.ofNat 16 (w % 2 ^ nbits))).toOption

end Sys2Proof
end

