-- ==== Sys2Proof/Machine/State.lean ====
section
/-! DEFINITION. The state of the block (spec/10_state.md R20), the host transactions (spec/20_memory.md R64), the
error kinds (spec/60_exceptions.md R270), and the state after reset (spec/10_state.md R40). -/

namespace Sys2Proof.Machine

/-- A memory of cells of `w` bits: the cells written since the last reset, by strictly rising address. A cell that is
not listed has not been written since then, and its content is unspecified (R40; log entry 2). -/
abbrev Mem (w : Nat) := List (Nat × BitVec w)

/-- The registers the host can name (R20). `LTAB` and `RTAB` have no number (R38). -/
inductive Reg where
  /-- 0x00, not storage: a write issues a command (R22) -/
  | cmd
  /-- 0x01 (R23) -/
  | err
  /-- 0x02 (R24) -/
  | esticky
  /-- 0x03 (R25) -/
  | res
  /-- 0x04 (R29) -/
  | idlen
  /-- 0x05 (R26) -/
  | modw
  /-- 0x06 (R27) -/
  | barh
  /-- 0x07 (R28) -/
  | margin
  /-- 0x08 (R33) -/
  | pixw
  /-- 0x09 (R34) -/
  | pixh
  /-- 0x0A, present when `HAS_BMC` = 1 (R35) -/
  | txtlen
  /-- 0x0B (R31) -/
  | cfg
  /-- 0x10 to 0x1E (R30) -/
  | idbuf (i : Fin 15)
  /-- 0x20 to 0x27 (R32) -/
  | outid (i : Fin 8)
deriving DecidableEq, Repr

/-- What the host can do to the block, and nothing else (R64). Register numbers and addresses are plain numbers. -/
inductive Transaction where
  | regRead (n : Nat)
  | regWrite (n : Nat) (v : Word)
  | pixRead (a : Nat)
  | pixWrite (a : Nat) (v : Word)
  | txtRead (a : Nat)
  | txtWrite (a : Nat) (v : Word)
  | reset
deriving DecidableEq, Repr

/-- The nine error kinds (R270). -/
inductive ErrorKind where
  | invalidIdentifier
  | malformedHeader
  | truncatedData
  | unrecognizedPattern
  | checksumMismatch
  | malformedBarcode
  | geometry
  | capacity
  | illegal
deriving DecidableEq, Repr

/-- A bit matrix as a value: its dimensions and its cells row by row from the top, each row from the left (R61). What
`ENC` and `BMR` compute before they commit. Not state (R39). -/
structure Matrix where
  width : Nat
  height : Nat
  cells : List Bit
deriving DecidableEq, Repr

/-- The state: the rows of R20's table, the block's configuration, and three fields of the model's own. -/
structure State where
  /-- `ERR`, error kind of the last command (R23) -/
  err : BitVec 4
  /-- `ESTICKY`, every error kind seen (R24) -/
  esticky : BitVec 10
  /-- `RES`, scalar result of the last scalar command (R25) -/
  res : BitVec 8
  /-- `IDLEN`, length of the identifier in `IDBUF` (R29) -/
  idlen : BitVec 4
  /-- `MODW`, module width in pixels (R26) -/
  modw : BitVec 16
  /-- `BARH`, bar height in pixels (R27) -/
  barh : BitVec 16
  /-- `MARGIN`, quiet-zone margin in pixels (R28) -/
  margin : BitVec 16
  /-- `PIXW`, width of the matrix in `PIX` (R33) -/
  pixw : BitVec 24
  /-- `PIXH`, height of the matrix in `PIX` (R34) -/
  pixh : BitVec 24
  /-- `TXTLEN`, bytes of text in `TXT` (R35) -/
  txtlen : BitVec 24
  /-- `IDBUF[0..14]`, identifier characters, input (R30) -/
  idbuf : Vector Byte 15
  /-- `OUTID[0..7]`, identifier characters, decoder output (R32) -/
  outid : Vector Byte 8
  /-- `PIX`, the bit matrix (R36): its written cells -/
  pix : Mem 1
  /-- `TXT`, the bitmap text (R37): its written cells -/
  txt : Mem 8
  /-- What is fixed for the block (R11, R12); the register `CFG` shows two of its values (R31). No step changes it.
  DESIGN CHOICE: log entry 1. -/
  config : Config
  /-- MODEL'S OWN: how many times unspecified cells have been drawn, one per reset (R310).
  DESIGN CHOICE: log entry 2. -/
  draws : Nat
  /-- MODEL'S OWN: the transactions the host has still to issue, next first: the host's script (R21, R104).
  DESIGN CHOICE: log entry 4. -/
  script : List Transaction
  /-- MODEL'S OWN: the word the last transaction returned to the host, when it was a read (R64, R65).
  DESIGN CHOICE: log entry 4. -/
  reply : Option Word
deriving DecidableEq, Repr

/-- Nothing the block does stops it: an error is a next state (R280, R283), and after every command the block accepts
the next transaction (R284; spec/93_implementation_defined.md, end of part 1). So there is no fault.
Log entry 6. -/
inductive Fault where
deriving DecidableEq, Repr

/-- Why a step is not taken. -/
inductive Refusal where
  /-- Raised by `exec` for a command that has no meaning yet: none. Safe. -/
  | notModelled (mnemonic : String)
  /-- Raised by `PixRead` and `PixWrite` at or above `PIX_CAP` (R69, R326). Safe: the spec gives no meaning. -/
  | pixAddress
  /-- Raised by `TxtRead` and `TxtWrite` at or above `TXT_CAP` (R69, R326). Safe: the spec gives no meaning. -/
  | txtAddress
  /-- Raised by `TxtRead` and `TxtWrite` when `HAS_BMC` = 0 (R69, R326). Safe: the spec gives no meaning. -/
  | txtAbsent
deriving DecidableEq, Repr

/-- The values of R40 in a block of configuration `c`, with the cells of both memories drawn for the `n`-th time and
the host about to issue `ts`. -/
def State.cleared (c : Config) (n : Nat) (ts : List Transaction) : State :=
  { err := 0, esticky := 0, res := 0, idlen := 0, modw := 0, barh := 0, margin := 0, pixw := 0, pixh := 0, txtlen := 0
    idbuf := Vector.replicate 15 0, outid := Vector.replicate 8 0, pix := [], txt := []
    config := c, draws := n, script := ts, reply := none }

/-- The block right after reset (R40), with the parameter values the spec takes and no transaction waiting. -/
def State.reset : State := State.cleared Config.standard 0 []

end Sys2Proof.Machine
end

