-- ==== Sys2Proof/Machine/Flags.lean ====
section
/-! DEFINITION. The fields of `ERR`, `ESTICKY`, `RES` and `CFG` (spec/10_state.md R23 to R25, R31; spec/60_exceptions.md
R270). -/

namespace Sys2Proof.Machine

/-- The code of an error kind: the value `ERR` takes and the bit of `ESTICKY` that is set (R270). -/
def ErrorKind.code : ErrorKind → Nat
  | .invalidIdentifier => 1
  | .malformedHeader => 2
  | .truncatedData => 3
  | .unrecognizedPattern => 4
  | .checksumMismatch => 5
  | .malformedBarcode => 6
  | .geometry => 7
  | .capacity => 8
  | .illegal => 9

/-- The `ESTICKY` word with only the bit of one error kind set (R24). -/
def ErrorKind.stickyBit (k : ErrorKind) : BitVec 10 := BitVec.twoPow 10 k.code

/-- `RES` of `CHK`: the check digit (R25). -/
def resDigit (d : Digit) : BitVec 8 := BitVec.ofNat 8 d.val

/-- `RES` of `VAL`: the verdict in bit 0 (R25). -/
def resVerdict (b : Bool) : BitVec 8 := if b then 0x01 else 0x00

/-- `RES` of `LPAT` and `RPAT`: the pattern, bit 6 the first module (R25). -/
def resPattern (t : Pattern) : BitVec 8 := t.setWidth 8

/-- `RES` of the reverse lookups: `HIT` in bit 7 and the digit, or 0 for "none" (R25). -/
def resFound : Option Digit → BitVec 8
  | some d => 0x80 + BitVec.ofNat 8 d.val
  | none => 0x00

/-- `ESTICKY` after the host writes `v`: every bit that is 1 in `v` is cleared (R24). -/
def stickyAfterWrite (old : BitVec 10) (v : Word) : BitVec 10 := old &&& ~~~(v.setWidth 10)

end Sys2Proof.Machine
end

