-- ==== Sys2Proof/Machine/Ops.lean ====
section
/-! DEFINITION. The named operations over the memories and registers, and the two ends of a command: `raise`
(spec/60_exceptions.md R280) and `done` (R279). -/

namespace Sys2Proof.Machine

/-- The canonical form of a memory: addresses strictly rising. An unlisted cell has no value of its own, so no entry
repeats one. -/
abbrev Mem.wf {w : Nat} (m : Mem w) : Prop := m.Pairwise (fun a b => a.1 < b.1)

/-- The content of a cell, when it has been written since the last reset. -/
def Mem.read {w : Nat} : Mem w → Nat → Option (BitVec w)
  | [], _ => none
  | (b, v) :: rest, a => if b = a then some v else Mem.read rest a

/-- Write of one cell (R18 `MemWrite`). -/
def Mem.write {w : Nat} : Mem w → Nat → BitVec w → Mem w
  | [], a, v => [(a, v)]
  | (b, u) :: rest, a, v =>
    if a < b then (a, v) :: (b, u) :: rest
    else if a = b then (a, v) :: rest
    else (b, u) :: Mem.write rest a v

/-- The cells `start`, `start + 1`, ... holding the values of a list in order. -/
def Mem.block {w : Nat} : Nat → List (BitVec w) → Mem w
  | _, [] => []
  | start, v :: vs => (start, v) :: Mem.block (start + 1) vs

/-- Write of the cells 0, 1, 2, ... with the values of a list; cells beyond keep what they held (R328). -/
def Mem.store {w : Nat} (m : Mem w) (vs : List (BitVec w)) : Mem w :=
  Mem.block 0 vs ++ m.filter (fun c => decide (vs.length ≤ c.1))

/-- `PIX[a]` (R18): what was written there, else the unspecified bit drawn at the last reset (R40, R321). -/
def State.pixAt (s : State) (a : Nat) : Bit := (s.pix.read a).getD (Config.freePix s.draws a)

/-- `TXT[a]` (R18), likewise. -/
def State.txtAt (s : State) (a : Nat) : Byte := (s.txt.read a).getD (Config.freeTxt s.draws a)

/-- `RES <- v`. -/
def State.setRes (s : State) (v : BitVec 8) : State := { s with res := v }

/-- `PIXW <- W; PIXH <- H`, and the cells of the matrix into `PIX[0..W·H−1]` (R171, R246). -/
def State.setMatrix (s : State) (m : Matrix) : State :=
  { s with pixw := BitVec.ofNat 24 m.width, pixh := BitVec.ofNat 24 m.height, pix := s.pix.store m.cells }

/-- `OUTID[i] <- c[i]`, all eight in one step (R211). -/
def State.setOutid (s : State) (c : Vector Byte 8) : State := { s with outid := c }

/-- The bytes of a text into `TXT[0..n−1]`, and `TXTLEN <- n` (R233). -/
def State.setText (s : State) (t : List Byte) : State :=
  { s with txt := s.txt.store t, txtlen := BitVec.ofNat 24 t.length }

/-- `raise K` (R280): `ERR <- code(K)`; `ESTICKY[code(K)] <- 1`; nothing else. The block's one exception entry: control
goes nowhere (R283). -/
def State.raise (s : State) (k : ErrorKind) : State :=
  { s with err := BitVec.ofNat 4 k.code, esticky := s.esticky ||| k.stickyBit }

/-- `done` (R279): `ERR <- 0`. There is no return from an error (R284): the next command simply overwrites `ERR`. -/
def State.done (s : State) : State := { s with err := 0 }

/-- The end of every command: all checks come before the first write of result state (R74, R280), so a command is a
result or an error kind, and then `raise`, or the writes and `done`. -/
def State.conclude {α : Type} (s : State) (r : Except ErrorKind α) (commit : State → α → State) : State :=
  match r with
  | .error k => s.raise k
  | .ok v => (commit s v).done

end Sys2Proof.Machine
end

