-- ==== Sys2Proof/Machine/Operands.lean ====
section
/-! DEFINITION. What a command reads its operands from: the layout constants (spec/00_scope.md R11), characters (R18),
the identifier (spec/10_state.md R29, R30), the symbol tables (spec/42_symbol_table.md R140, R141). -/

namespace Sys2Proof.Machine

/-- `CW`, width of the centre guard (R11). -/
def centreWidth : Layout → Nat
  | .l62 => 3
  | .l67 => 5

/-- `EW`, width of the end guard (R11). -/
def endWidth : Layout → Nat
  | .l62 => 0
  | .l67 => 3

/-- `RSTART` = 31 + `CW`, first position of the right group (R11). -/
def rightStart (l : Layout) : Nat := 31 + centreWidth l

/-- `ESTART` = `RSTART` + 28, first position of the end guard (R11). -/
def endStart (l : Layout) : Nat := rightStart l + 28

/-- `TOTAL` = `ESTART` + `EW`, modules in the symbol (R11). -/
def totalModules (l : Layout) : Nat := endStart l + endWidth l

/-- The register `CFG` (R31): `TOTAL` in bits 7..0, `HAS_BMC` in bit 8. -/
def cfgValue (c : Config) : BitVec 9 := BitVec.ofBool c.hasBmc ++ BitVec.ofNat 8 (totalModules c.layout)

/-- `isdigit(c)` and `val(c)` together (R18): the value of a digit character, or none. -/
def digitOf (c : Byte) : Option Digit :=
  if h : 0x30 ≤ c.toNat ∧ c.toNat ≤ 0x39 then some ⟨c.toNat - 0x30, by omega⟩ else none

/-- `chr(d)` (R18). -/
def charOf (d : Digit) : Byte := BitVec.ofNat 8 (d.val + 0x30)

/-- The values of the first `n` characters of a string, when they are present and all digits. -/
def leadingDigits (cs : List Byte) : (n : Nat) → Option (Vector Digit n)
  | 0 => some #v[]
  | n + 1 =>
    match leadingDigits cs n, cs[n]?.bind digitOf with
    | some ds, some d => some (ds.push d)
    | _, _ => none

/-- The identifier: the string `IDBUF[0] .. IDBUF[IDLEN−1]` (R30). -/
def State.identifier (s : State) : List Byte := s.idbuf.toList.take s.idlen.toNat

/-- `LTAB` (R38, R141), a constant and not a field of the state (DEDUCED: log entry 5), the strings read from the left, the first character bit 6 (R140). -/
def ltab : Vector Pattern 10 :=
  #v[0b0001101, 0b0011001, 0b0010011, 0b0111101, 0b0100011, 0b0110001, 0b0101111, 0b0111011, 0b0110111, 0b0001011]

/-- `RTAB` (R141). -/
def rtab : Vector Pattern 10 :=
  #v[0b1110010, 0b1100110, 0b1101100, 0b1000010, 0b1011100, 0b1001110, 0b1010000, 0b1000100, 0b1001000, 0b1110100]

/-- `t⟨k⟩`, element `k` of a pattern: bit `6 − k` of the number (R140). -/
def element (t : Pattern) (k : Nat) : Bit := BitVec.ofBool (t.getMsbD k)

/-- The operand `d` of a `D`-format command as a digit (R92, R95); a value above 9 makes the word illegal (R97).
DEDUCED for `exec` of a command that no word encodes: log entry 7. -/
def digitOperand (d : BitVec 4) : Except ErrorKind Digit :=
  if h : d.toNat < 10 then .ok ⟨d.toNat, h⟩ else .error .illegal

end Sys2Proof.Machine
end

