-- ==== Sys2Proof/Machine/Checksum.lean ====
section
/-! DEFINITION. The checksum unit: `CHK` and `VAL` (spec/41_checksum.md). -/

namespace Sys2Proof.Machine

/-- The weighted sum of a payload, weight 3 at even and 1 at odd indexes (R121). -/
def weightedSum (p : Vector Digit 7) : Nat :=
  3 * p[0].val + 1 * p[1].val + 3 * p[2].val + 1 * p[3].val + 3 * p[4].val + 1 * p[5].val + 3 * p[6].val

/-- `cd(p)`, the check digit of a payload (R121). -/
def checkDigit (p : Vector Digit 7) : Digit :=
  ⟨(10 - weightedSum p % 10) % 10, Nat.mod_lt _ (by decide)⟩

/-- The payload of eight digits: the first seven. -/
def payload (d : Vector Digit 8) : Vector Digit 7 := d.pop

/-- The digits of a string that is an identifier (R124, R128), or none. -/
def identifierDigits (cs : List Byte) : Option (Vector Digit 8) :=
  if cs.length = 8 then
    match leadingDigits cs 8 with
    | some d => if checkDigit (payload d) = d[7] then some d else none
    | none => none
  else none

/-- `valid(s)` (R124). -/
def valid (cs : List Byte) : Bool := (identifierDigits cs).isSome

/-- The answer of `CHK` (R123): fewer than seven characters, or a non-digit among the first seven, is an error. -/
def chkResult (s : State) : Except ErrorKind Digit :=
  if s.idlen.toNat < 7 then .error .invalidIdentifier
  else match leadingDigits s.idbuf.toList 7 with
    | none => .error .invalidIdentifier
    | some p => .ok (checkDigit p)

/-- `CHK` (R123). -/
def execChk (s : State) : Host.Outcome State Fault Refusal :=
  .next (s.conclude (chkResult s) (fun s d => s.setRes (resDigit d)))

/-- `VAL` (R125): an answer, never an error (R288). -/
def execVal (s : State) : Host.Outcome State Fault Refusal :=
  .next (s.conclude (.ok (valid s.identifier)) (fun s b => s.setRes (resVerdict b)))

end Sys2Proof.Machine
end

