-- ==== Sys2Proof/Machine/Encoder.lean ====
section
/-! DEFINITION. The encoder unit: `ENC` (spec/43_encoder.md). -/

namespace Sys2Proof.Machine

/-- The guard rule of the centre and end guards: 1 at even positions (R172). -/
def parityBit (p : Nat) : Bit := if p % 2 = 0 then 1 else 0

/-- `modbit(D, p)`, the bit of the symbol at module position `p` (R172). The last arm is not reached by `ENC` in `L62`
(R181); it keeps the function total. -/
def moduleBit (l : Layout) (D : Vector Digit 8) (p : Nat) : Bit :=
  if p < 3 then (if p = 0 ∨ p = 2 then 1 else 0)
  else if h : p < 31 then element ltab[D[(p - 3) / 7]'(by omega)] ((p - 3) % 7)
  else if p < rightStart l then parityBit p
  else if h : p < endStart l then
    element rtab[D[4 + (p - rightStart l) / 7]'(by unfold endStart at h; omega)] ((p - rightStart l) % 7)
  else parityBit p

/-- `W` = `TOTAL`·`mw` + 2·`m` (R175). -/
def symbolWidth (l : Layout) (mw m : Nat) : Nat := totalModules l * mw + 2 * m

/-- `H` = `bh` + 2·`m` (R175). -/
def symbolHeight (bh m : Nat) : Nat := bh + 2 * m

/-- `pix(D, mw, m, W, H, x, y)` (R177): 0 in the margin band, else the module bit. -/
def pixel (l : Layout) (D : Vector Digit 8) (mw m W H x y : Nat) : Bit :=
  if y < m ∨ y ≥ H - m ∨ x < m ∨ x ≥ W - m then 0 else moduleBit l D ((x - m) / mw)

/-- The cells of a matrix row by row, each row from the left (R61, R178). -/
def raster {α : Type} (W H : Nat) (f : Nat → Nat → α) : List α :=
  (List.range H).flatMap (fun y => (List.range W).map (fun x => f x y))

/-- The width of the matrix that the geometry registers ask for (R175). -/
def State.drawWidth (s : State) : Nat := symbolWidth s.config.layout s.modw.toNat s.margin.toNat

/-- The height of the matrix that the geometry registers ask for (R175). -/
def State.drawHeight (s : State) : Nat := symbolHeight s.barh.toNat s.margin.toNat

/-- The matrix of eight digits in the geometry of the registers (R171). -/
def State.drawing (s : State) (D : Vector Digit 8) : Matrix :=
  { width := s.drawWidth, height := s.drawHeight
    cells := raster s.drawWidth s.drawHeight
      (pixel s.config.layout D s.modw.toNat s.margin.toNat s.drawWidth s.drawHeight) }

/-- The matrix `ENC` draws (R171): the identifier check first (R173), then the geometry check (R174), then the capacity
check (R176). -/
def encResult (s : State) : Except ErrorKind Matrix :=
  match identifierDigits s.identifier with
  | none => .error .invalidIdentifier
  | some D =>
    if s.modw = 0 ∨ s.barh = 0 then .error .geometry
    else if s.drawWidth * s.drawHeight > s.config.pixCap.val then .error .capacity
    else .ok (s.drawing D)

/-- `ENC` (R171). -/
def execEnc (s : State) : Host.Outcome State Fault Refusal :=
  .next (s.conclude (encResult s) State.setMatrix)

end Sys2Proof.Machine
end

