-- ==== Sys2Proof/Machine/Bitmap.lean ====
section
/-! DEFINITION. The bitmap text unit: `BMW` and `BMR` (spec/45_bitmap_codec.md). -/

namespace Sys2Proof.Machine

/-- `ws(c)`: space, TAB, LF, CR (R232). -/
def isSpace (c : Byte) : Bool := c == 0x20 || c == 0x09 || c == 0x0A || c == 0x0D

/-- `digit(x)` (R240). -/
def isDigit (c : Byte) : Bool := (digitOf c).isSome

/-- `dec(n)` by repeated division, the last digit first onto the front of `acc`; the first argument bounds the number of
divisions. -/
def decimalFrom : Nat → Nat → List Byte → List Byte
  | 0, _, acc => acc
  | fuel + 1, n, acc =>
    if n < 10 then charOf (Fin.ofNat 10 n) :: acc
    else decimalFrom fuel (n / 10) (charOf (Fin.ofNat 10 n) :: acc)

/-- `dec(n)`, the decimal digits of `n`, most significant first, no leading zero (R236). -/
def decimal (n : Nat) : List Byte := decimalFrom (n + 1) n []

/-- The header lines `P1` LF, `dec(W)` space `dec(H)` LF (R234). -/
def headerText (W H : Nat) : List Byte :=
  [0x50, 0x31, 0x0A] ++ decimal W ++ [0x20] ++ decimal H ++ [0x0A]

/-- The text of one pixel and what follows it: a space inside a row, LF at its end (R234). -/
def pixelText (W : Nat) (b : Bit) (x : Nat) : List Byte :=
  [0x30 + b.setWidth 8, if x < W - 1 then 0x20 else 0x0A]

/-- The text of a matrix whose cell `a` is `cell a` (R233, R234). -/
def matrixText (W H : Nat) (cell : Nat → Bit) : List Byte :=
  headerText W H ++ (raster W H (fun x y => pixelText W (cell (y * W + x)) x)).flatten

/-- `n`, the length of the text (R235). -/
def textLength (W H : Nat) : Nat := 3 + (decimal W).length + 1 + (decimal H).length + 1 + 2 * W * H

/-- The text `BMW` writes (R233). When `HAS_BMC` = 0 the command word is illegal (R97; log entry 7). -/
def bmwResult (s : State) : Except ErrorKind (List Byte) :=
  let W := s.pixw.toNat
  let H := s.pixh.toNat
  if s.config.hasBmc = false then .error .illegal
  else if s.pixw = 0 ∨ s.pixh = 0 then .error .geometry
  else if W * H > s.config.pixCap.val then .error .capacity
  else if textLength W H > s.config.txtCap.val then .error .capacity
  else .ok (matrixText W H s.pixAt)

/-- `BMW` (R233). -/
def execBmw (s : State) : Host.Outcome State Fault Refusal :=
  .next (s.conclude (bmwResult s) State.setText)

/-- Phase 1, the magic token (R241): the text after it. -/
def afterMagic : List Byte → Except ErrorKind (List Byte)
  | c0 :: c1 :: rest =>
    if c0 ≠ 0x50 ∨ c1 ≠ 0x31 then .error .malformedHeader
    else match rest with
      | [] => .ok []
      | c :: cs => if isSpace c then .ok (c :: cs) else .error .malformedHeader
  | _ => .error .malformedHeader

/-- Phase 2, blank and comment lines (R242). The first argument says whether the byte is inside a comment. A comment
ends before the next LF; that LF is whitespace, so it is skipped with it (DEDUCED: log entry 8). -/
def skipBlank : Bool → List Byte → List Byte
  | _, [] => []
  | false, c :: cs =>
    if isSpace c then skipBlank false cs
    else if c = 0x23 then skipBlank true cs
    else c :: cs
  | true, c :: cs => if c = 0x0A then skipBlank false cs else skipBlank true cs

/-- The value of a run of digit bytes, an exact natural whatever its length (R243). -/
def decimalValue (cs : List Byte) : Nat := cs.foldl (fun n c => 10 * n + (c.toNat - 0x30)) 0

/-- A maximal run of one or more digit bytes: its value and the text after it (R243). -/
def readNumber (cs : List Byte) : Except ErrorKind (Nat × List Byte) :=
  match cs with
  | [] => .error .malformedHeader
  | c :: _ =>
    if isDigit c then .ok (decimalValue (cs.takeWhile isDigit), cs.dropWhile isDigit)
    else .error .malformedHeader

/-- Phase 3, the dimensions and the text after them (R243): the width closed by whitespace, the height by whitespace or
the end of the text, neither of them 0. -/
def readDimensions (cs : List Byte) : Except ErrorKind (Nat × Nat × List Byte) :=
  match readNumber cs with
  | .error e => .error e
  | .ok (_, []) => .error .malformedHeader
  | .ok (W, c :: rest) =>
    if isSpace c = false then .error .malformedHeader
    else match readNumber (rest.dropWhile isSpace) with
      | .error e => .error e
      | .ok (H, after) =>
        if after.head?.any (fun c => !isSpace c) then .error .malformedHeader
        else if W = 0 ∨ H = 0 then .error .malformedHeader
        else .ok (W, H, after)

/-- Phase 4, the pixels (R244, R245): the first argument is how many are still to be read. -/
def readPixels : Nat → List Byte → Except ErrorKind (List Bit)
  | 0, [] => .ok []
  | _ + 1, [] => .error .truncatedData
  | need, c :: cs =>
    if isSpace c then readPixels need cs
    else if c = 0x30 ∨ c = 0x31 then
      match need with
      | 0 => .error .malformedHeader
      | need + 1 =>
        match readPixels need cs with
        | .error e => .error e
        | .ok bs => .ok ((if c = 0x31 then 1 else 0) :: bs)
    else .error .malformedHeader

/-- The matrix a text stands for, phases 1 to 4 with the capacity test between 3 and 4 (R240). -/
def parseText (pixCap : Nat) (text : List Byte) : Except ErrorKind Matrix :=
  match afterMagic text with
  | .error e => .error e
  | .ok rest =>
    match readDimensions (skipBlank false rest) with
    | .error e => .error e
    | .ok (W, H, after) =>
      if W * H > pixCap then .error .capacity
      else match readPixels (W * H) after with
        | .error e => .error e
        | .ok bs => .ok { width := W, height := H, cells := bs }

/-- The text `TXT[0..TXTLEN−1]` (R62). -/
def State.text (s : State) : List Byte := (List.range s.txtlen.toNat).map s.txtAt

/-- The matrix `BMR` reads (R240). When `HAS_BMC` = 0 the command word is illegal (R97; log entry 7). -/
def bmrResult (s : State) : Except ErrorKind Matrix :=
  if s.config.hasBmc = false then .error .illegal
  else if s.txtlen.toNat > s.config.txtCap.val then .error .capacity
  else parseText s.config.pixCap.val s.text

/-- `BMR` (R240). -/
def execBmr (s : State) : Host.Outcome State Fault Refusal :=
  .next (s.conclude (bmrResult s) State.setMatrix)

end Sys2Proof.Machine
end

