-- ==== Sys2Proof/Machine/Symbol.lean ====
section
/-! DEFINITION. The symbol-table unit: `LPAT`, `RPAT`, `LREV`, `RREV`, `UREV` (spec/42_symbol_table.md). -/

namespace Sys2Proof.Machine

/-- The digit whose pattern in a table is `t`, or none (R145). -/
def lookup (tab : Vector Pattern 10) (t : Pattern) : Option Digit :=
  [0, 1, 2, 3, 4, 5, 6, 7, 8, 9].find? (fun d : Digit => tab[d] == t)

/-- `lrev` (R145). -/
def lrev (t : Pattern) : Option Digit := lookup ltab t

/-- `rrev` (R145). -/
def rrev (t : Pattern) : Option Digit := lookup rtab t

/-- `urev` (R145): the left table is searched first. -/
def urev (t : Pattern) : Option Digit := (lrev t).or (rrev t)

/-- `LPAT d` (R143). -/
def execLpat (d : BitVec 4) (s : State) : Host.Outcome State Fault Refusal :=
  .next (s.conclude (digitOperand d) (fun s d => s.setRes (resPattern ltab[d])))

/-- `RPAT d` (R144). -/
def execRpat (d : BitVec 4) (s : State) : Host.Outcome State Fault Refusal :=
  .next (s.conclude (digitOperand d) (fun s d => s.setRes (resPattern rtab[d])))

/-- `LREV pat` (R146): "none" is an answer, not an error (R288). -/
def execLrev (pat : Pattern) (s : State) : Host.Outcome State Fault Refusal :=
  .next (s.conclude (.ok (lrev pat)) (fun s q => s.setRes (resFound q)))

/-- `RREV pat` (R147). -/
def execRrev (pat : Pattern) (s : State) : Host.Outcome State Fault Refusal :=
  .next (s.conclude (.ok (rrev pat)) (fun s q => s.setRes (resFound q)))

/-- `UREV pat` (R148). -/
def execUrev (pat : Pattern) (s : State) : Host.Outcome State Fault Refusal :=
  .next (s.conclude (.ok (urev pat)) (fun s q => s.setRes (resFound q)))

end Sys2Proof.Machine
end

