-- ==== Sys2Proof/Machine/Decoder.lean ====
section
/-! DEFINITION. The decoder unit: `DEC` (spec/44_decoder.md). -/

namespace Sys2Proof.Machine

/-- The scanline, row `H div 2` (R203). -/
def scanRow (s : State) : Nat := s.pixh.toNat / 2

/-- The address of the one pixel that is read of the module at position `p` (R205). -/
def sampleAddress (s : State) (p : Nat) : Nat :=
  scanRow s * s.pixw.toNat + s.margin.toNat + p * s.modw.toNat

/-- `sample(p)` (R205). -/
def sample (s : State) (p : Nat) : Bit := s.pixAt (sampleAddress s p)

/-- The whole run of module `p` lies inside the row (R206). -/
abbrev runInBounds (s : State) (p : Nat) : Prop :=
  s.margin.toNat + (p + 1) * s.modw.toNat ≤ s.pixw.toNat

/-- `base(g)`, first position of digit group `g` (R207). -/
def groupBase (l : Layout) (g : Nat) : Nat :=
  if g < 4 then 3 + 7 * g else rightStart l + 7 * (g - 4)

/-- The first `k` samples from position `base` on, the first of them the highest bit; for each the bounds test, then the
sample (R208). -/
def gather (s : State) (base : Nat) : (k : Nat) → Except ErrorKind (BitVec k)
  | 0 => .ok 0#0
  | k + 1 =>
    match gather s base k with
    | .error e => .error e
    | .ok t =>
      if runInBounds s (base + k) then .ok (t ++ sample s (base + k)) else .error .malformedBarcode

/-- The lookup of a group: the left table for groups 0..3, the right table for groups 4..7 (R150, R207). -/
def groupLookup (g : Nat) (t : Pattern) : Option Digit := if g < 4 then lrev t else rrev t

/-- The digit of group `g` (R207). -/
def groupDigit (s : State) (g : Nat) : Except ErrorKind Digit :=
  match gather s (groupBase s.config.layout g) 7 with
  | .error e => .error e
  | .ok t =>
    match groupLookup g t with
    | none => .error .unrecognizedPattern
    | some d => .ok d

/-- The digits of groups 0..`n`−1, left to right; the first test that fails ends the walk (R208). -/
def walk (s : State) : (n : Nat) → Except ErrorKind (Vector Digit n)
  | 0 => .ok #v[]
  | n + 1 =>
    match walk s n with
    | .error e => .error e
    | .ok ds =>
      match groupDigit s n with
      | .error e => .error e
      | .ok d => .ok (ds.push d)

/-- The digits `DEC` recovers (R201): the preconditions in the order of R204, the walk, the check digit (R210). -/
def decResult (s : State) : Except ErrorKind (Vector Digit 8) :=
  if s.modw = 0 then .error .geometry
  else if s.pixw = 0 ∨ s.pixh = 0 then .error .malformedBarcode
  else if s.pixw.toNat * s.pixh.toNat > s.config.pixCap.val then .error .capacity
  else if s.pixh.toNat ≤ 2 * s.margin.toNat then .error .malformedBarcode
  else
    match walk s 8 with
    | .error e => .error e
    | .ok d => if checkDigit (payload d) ≠ d[7] then .error .checksumMismatch else .ok d

/-- The recovered identifier as characters, `chr(d[i])` (R211). -/
def digitChars (d : Vector Digit 8) : Vector Byte 8 := Vector.ofFn (fun i => charOf d[i])

/-- `DEC` (R201). -/
def execDec (s : State) : Host.Outcome State Fault Refusal :=
  .next (s.conclude (decResult s) (fun s d => s.setOutid (digitChars d)))

end Sys2Proof.Machine
end

