-- ==== Sys2Proof/Machine/Dispatch.lean ====
section
/-! DEFINITION. The one arm of every command (spec/30_encoding.md R94). -/

namespace Sys2Proof.Machine

def exec (i : Instr) (s : State) : Host.Outcome State Fault Refusal :=
  match i with
  | .chk => Sys2Proof.Machine.execChk s
  | .val => Sys2Proof.Machine.execVal s
  | .lpat d => Sys2Proof.Machine.execLpat d s
  | .rpat d => Sys2Proof.Machine.execRpat d s
  | .lrev pat => Sys2Proof.Machine.execLrev pat s
  | .rrev pat => Sys2Proof.Machine.execRrev pat s
  | .urev pat => Sys2Proof.Machine.execUrev pat s
  | .enc => Sys2Proof.Machine.execEnc s
  | .dec => Sys2Proof.Machine.execDec s
  | .bmw => Sys2Proof.Machine.execBmw s
  | .bmr => Sys2Proof.Machine.execBmr s

end Sys2Proof.Machine
end

