-- ==== Sys2Proof/Machine/HostAccess.lean ====
section
/-! DEFINITION. The host's transactions (spec/20_memory.md R64, R65, R69): register access (spec/10_state.md R41), the
issue of a command word (R22), access to the two memories, and reset (spec/70_reset_and_hazards.md R310). -/

namespace Sys2Proof.Machine

/-- The register a number names (R20); none for the numbers the table does not assign, and for 0x0A when `HAS_BMC` = 0
(R41). -/
def regOf (c : Config) (n : Nat) : Option Reg :=
  if h : 0x10 ≤ n ∧ n ≤ 0x1E then some (.idbuf ⟨n - 0x10, by omega⟩)
  else if h : 0x20 ≤ n ∧ n ≤ 0x27 then some (.outid ⟨n - 0x20, by omega⟩)
  else match n with
    | 0x00 => some .cmd
    | 0x01 => some .err
    | 0x02 => some .esticky
    | 0x03 => some .res
    | 0x04 => some .idlen
    | 0x05 => some .modw
    | 0x06 => some .barh
    | 0x07 => some .margin
    | 0x08 => some .pixw
    | 0x09 => some .pixh
    | 0x0A => if c.hasBmc then some .txtlen else none
    | 0x0B => some .cfg
    | _ => none

/-- What a host read of a register returns: its value, zero-extended (R41); `CMD` reads as 0 (R22). -/
def State.readReg (s : State) : Reg → Word
  | .cmd => 0
  | .err => s.err.setWidth 32
  | .esticky => s.esticky.setWidth 32
  | .res => s.res.setWidth 32
  | .idlen => s.idlen.setWidth 32
  | .modw => s.modw.setWidth 32
  | .barh => s.barh.setWidth 32
  | .margin => s.margin.setWidth 32
  | .pixw => s.pixw.setWidth 32
  | .pixh => s.pixh.setWidth 32
  | .txtlen => s.txtlen.setWidth 32
  | .cfg => (cfgValue s.config).setWidth 32
  | .idbuf i => s.idbuf[i].setWidth 32
  | .outid i => s.outid[i].setWidth 32

/-- What a host write of a register other than `CMD` does (R41): the low bits are stored; `ESTICKY` is cleared bit by bit
(R24); a write of a read-only register has no effect. -/
def State.writeReg (s : State) (v : Word) : Reg → State
  | .cmd | .err | .res | .cfg | .outid _ => s
  | .esticky => { s with esticky := stickyAfterWrite s.esticky v }
  | .idlen => { s with idlen := v.setWidth 4 }
  | .modw => { s with modw := v.setWidth 16 }
  | .barh => { s with barh := v.setWidth 16 }
  | .margin => { s with margin := v.setWidth 16 }
  | .pixw => { s with pixw := v.setWidth 24 }
  | .pixh => { s with pixh := v.setWidth 24 }
  | .txtlen => { s with txtlen := v.setWidth 24 }
  | .idbuf i => { s with idbuf := s.idbuf.set i (v.setWidth 8) }

/-- The value a read transaction returns (R64). -/
def State.answer (s : State) (v : Word) : State := { s with reply := some v }

/-- `PIX[a] <- b`, one cell (R64). -/
def State.writePix (s : State) (a : Nat) (b : Bit) : State := { s with pix := s.pix.write a b }

/-- `TXT[a] <- v`, one cell (R64). -/
def State.writeTxt (s : State) (a : Nat) (v : Byte) : State := { s with txt := s.txt.write a v }

/-- `Reset` (R310): the values of R40; both memories are drawn anew (R40: "not required to be the same after two
resets"). The configuration and the host's script stay. -/
def State.hostReset (s : State) : State := State.cleared s.config (s.draws + 1) s.script

/-- A command word executes as the command it stands for, or, when it is illegal, as a command that fails with
`E_ILLEGAL` (R97, R278). -/
def issue (cw : CmdWord) (s : State) : Host.Outcome State Fault Refusal :=
  match decode s.config cw with
  | .ok i => exec i s
  | .error _ => .next (s.raise .illegal)

/-- `RegRead(n)` (R64): an unassigned number reads 0 (R41). -/
def regRead (n : Nat) (s : State) : State :=
  match regOf s.config n with
  | some r => s.answer (s.readReg r)
  | none => s.answer 0

/-- `RegWrite(n, v)` (R64): a write of `CMD` executes the whole command `trunc_16(v)` (R22); an unassigned number ignores
the write (R41). -/
def regWrite (n : Nat) (v : Word) (s : State) : Host.Outcome State Fault Refusal :=
  match regOf s.config n with
  | some .cmd => issue (v.setWidth 16) s
  | some r => .next (s.writeReg v r)
  | none => .next s

/-- Access to `PIX`, refused at or above `PIX_CAP` (R64, R69). -/
def pixAccess (a : Nat) (s t : State) : Host.Outcome State Fault Refusal :=
  if a < s.config.pixCap.val then .next t else .refused .pixAddress

/-- Access to `TXT`, refused when `HAS_BMC` = 0 and at or above `TXT_CAP` (R64, R69). -/
def txtAccess (a : Nat) (s t : State) : Host.Outcome State Fault Refusal :=
  if s.config.hasBmc = false then .refused .txtAbsent
  else if a < s.config.txtCap.val then .next t
  else .refused .txtAddress

/-- One transaction (R64). -/
def transact (t : Transaction) (s : State) : Host.Outcome State Fault Refusal :=
  match t with
  | .regRead n => .next (regRead n s)
  | .regWrite n v => regWrite n v s
  | .pixRead a => pixAccess a s (s.answer ((s.pixAt a).setWidth 32))
  | .pixWrite a v => pixAccess a s (s.writePix a (v.setWidth 1))
  | .txtRead a => txtAccess a s (s.answer ((s.txtAt a).setWidth 32))
  | .txtWrite a v => txtAccess a s (s.writeTxt a (v.setWidth 8))
  | .reset => .next s.hostReset

/-- The state as the next transaction finds it: that transaction off the host's script, no reply yet. -/
def State.take (s : State) (rest : List Transaction) : State := { s with script := rest, reply := none }

/-- A block with no transaction waiting is idle and holds its state (R291, R333); otherwise it takes the next one.
DESIGN CHOICE: log entry 4. -/
def nextTransaction (s : State) : Host.Outcome State Fault Refusal :=
  match s.script with
  | [] => .next s
  | t :: rest => transact t (s.take rest)

end Sys2Proof.Machine
end

