-- ==== Sys2Proof/Machine/Step.lean ====
section
/-! DEFINITION. One step: one host transaction (spec/00_scope.md R15, spec/20_memory.md R64). -/

namespace Sys2Proof.Machine

/-- One step of the block. -/
def step (s : State) : Host.Outcome State Fault Refusal := nextTransaction s

/-- `s` with the host about to write a word to `CMD`: the next step issues that command. The block fetches nothing (R4,
R21), so this is where a command comes from (log entry 4). -/
def State.withFetchWord (s : State) (nbits w : Nat) : State :=
  { s with script := .regWrite 0x00 (BitVec.ofNat 32 (w % 2 ^ nbits)) :: s.script }

end Sys2Proof.Machine
end

