-- ==== Sys2Proof/Safety.lean ====
section
/-! DEFINITION. What a sound state of the block is: the promises the spec makes of its state between transactions. -/

namespace Sys2Proof.Machine

/-- What holds of the state after reset and after every transaction. -/
structure State.Sound (s : State) : Prop where
  /-- "Values 10 to 15 never occur" (R23) -/
  errRange : s.err.toNat ≤ 9
  /-- "Bit 0 is hardwired 0" (R24) -/
  stickyBitZero : s.esticky.getLsbD 0 = false
  /-- `RES` is one of the values of R25: a pattern, or `HIT` and a digit -/
  resRange : s.res.toNat < 128 ∨ (128 ≤ s.res.toNat ∧ s.res.toNat ≤ 137)
  /-- `OUTID` holds its reset values or an identifier (R32, R210) -/
  outidIdentifier : s.outid = Vector.replicate 8 0 ∨ valid s.outid.toList = true
  /-- the memories are in canonical form -/
  pixCanonical : s.pix.wf
  txtCanonical : s.txt.wf
  /-- no cell outside a memory is written (R36, R37) -/
  pixInside : ∀ c ∈ s.pix, c.1 < s.config.pixCap.val
  txtInside : ∀ c ∈ s.txt, c.1 < s.config.txtCap.val
  /-- `TXT` and `TXTLEN` are absent when `HAS_BMC` = 0 (R35, R37) -/
  textAbsent : s.config.hasBmc = false → s.txt = [] ∧ s.txtlen = 0

end Sys2Proof.Machine
end

