-- ==== Sys2Proof/Certificates/Slice0/Obligations.lean ====
section
/-! DEFINITION. What is claimed of the model, rule by rule of the spec. The claims are written in plain arithmetic on
the state's fields wherever the rule is, so that they do not repeat the definitions they are about. Names that the claims
share stand first, under `Sys2Proof.Claims`. -/

open Sys2Proof Sys2Proof.Machine

namespace Sys2Proof.Claims

/-- The check digit of the first seven of eight digits, written out (R121). -/
def checkSumDigit (D : Vector Digit 8) : Nat :=
  (10 - (3 * D[0].val + D[1].val + 3 * D[2].val + D[3].val + 3 * D[4].val + D[5].val + 3 * D[6].val) % 10) % 10

/-- `IDBUF` and `IDLEN` hold the identifier with digits `D` (R128). -/
def HoldsIdentifier (s : State) (D : Vector Digit 8) : Prop :=
  s.idlen.toNat = 8 ∧ (∀ i (h : i < 8), s.idbuf[i].toNat = 0x30 + D[i].val) ∧ checkSumDigit D = D[7].val

/-- A character that is not a decimal digit (R18). -/
def NotDigit (c : Byte) : Prop := c.toNat < 0x30 ∨ 0x39 < c.toNat

/-- The words R97 calls illegal, in the order of its list. -/
def IllegalWord (c : Config) (w : CmdWord) : Prop :=
  w.toNat / 256 ∉ [0x01, 0x02, 0x10, 0x11, 0x12, 0x13, 0x14, 0x20, 0x21, 0x30, 0x31] ∨
  (w.toNat / 256 ∈ [0x01, 0x02, 0x20, 0x21, 0x30, 0x31] ∧ w.toNat % 256 ≠ 0) ∨
  (w.toNat / 256 ∈ [0x10, 0x11] ∧ (w.toNat % 256 / 16 ≠ 0 ∨ w.toNat % 16 > 9)) ∨
  (w.toNat / 256 ∈ [0x12, 0x13, 0x14] ∧ w.toNat % 256 / 128 = 1) ∨
  (c.hasBmc = false ∧ w.toNat / 256 ∈ [0x30, 0x31])

/-- The numbers of R141's table, left and right. -/
def leftNumbers : List Nat := [13, 25, 19, 61, 35, 49, 47, 59, 55, 11]
def rightNumbers : List Nat := [114, 102, 108, 66, 92, 78, 80, 68, 72, 116]

/-- `TOTAL` of a layout, as R11's table has it. -/
def total : Layout → Nat
  | .l62 => 62
  | .l67 => 67

/-- What a host read of register number `n` returns (R20, R41). -/
def registerValue (s : State) (n : Nat) : Nat :=
  if n = 0x01 then s.err.toNat
  else if n = 0x02 then s.esticky.toNat
  else if n = 0x03 then s.res.toNat
  else if n = 0x04 then s.idlen.toNat
  else if n = 0x05 then s.modw.toNat
  else if n = 0x06 then s.barh.toNat
  else if n = 0x07 then s.margin.toNat
  else if n = 0x08 then s.pixw.toNat
  else if n = 0x09 then s.pixh.toNat
  else if n = 0x0A ∧ s.config.hasBmc = true then s.txtlen.toNat
  else if n = 0x0B then total s.config.layout + (if s.config.hasBmc then 256 else 0)
  else if h : 0x10 ≤ n ∧ n ≤ 0x1E then (s.idbuf[n - 0x10]'(by omega)).toNat
  else if h : 0x20 ≤ n ∧ n ≤ 0x27 then (s.outid[n - 0x20]'(by omega)).toNat
  else 0

/-- What a host write of `v` to register number `n`, other than `CMD`, makes of the block (R20, R24, R41). -/
def registerWritten (s : State) (n : Nat) (v : Word) : State :=
  if n = 0x02 then { s with esticky := s.esticky &&& ~~~(BitVec.ofNat 10 v.toNat) }
  else if n = 0x04 then { s with idlen := BitVec.ofNat 4 v.toNat }
  else if n = 0x05 then { s with modw := BitVec.ofNat 16 v.toNat }
  else if n = 0x06 then { s with barh := BitVec.ofNat 16 v.toNat }
  else if n = 0x07 then { s with margin := BitVec.ofNat 16 v.toNat }
  else if n = 0x08 then { s with pixw := BitVec.ofNat 24 v.toNat }
  else if n = 0x09 then { s with pixh := BitVec.ofNat 24 v.toNat }
  else if n = 0x0A ∧ s.config.hasBmc = true then { s with txtlen := BitVec.ofNat 24 v.toNat }
  else if h : 0x10 ≤ n ∧ n ≤ 0x1E then { s with idbuf := s.idbuf.set (n - 0x10) (BitVec.ofNat 8 v.toNat) (by omega) }
  else s

/-- The state in which the next transaction runs: it is off the script, and nothing has been returned yet. -/
def taken (s : State) (rest : List Transaction) : State := { s with script := rest, reply := none }

/-- The block after a command that fails with code `k` (R280). -/
def failed (s : State) (k : Nat) : State :=
  { s with err := BitVec.ofNat 4 k, esticky := s.esticky ||| BitVec.twoPow 10 k }

/-- The seven modules of a pattern, the first at the left: bits 6 to 0 of the number (R140). -/
def patternModules (t : Nat) : List Bit := [6, 5, 4, 3, 2, 1, 0].map (fun i => BitVec.ofNat 1 (t / 2 ^ i))

/-- The pattern of digit `d` in digit group `g`: of the left table in groups 0..3, of the right in 4..7 (R207). -/
def groupNumber (g : Nat) (d : Digit) : Nat := ((if g < 4 then leftNumbers else rightNumbers)[d.val]?).getD 0

/-- The modules of a symbol from left to right: start guard, four left patterns, centre guard, four right patterns, end
guard (R179). -/
def symbolModules (l : Layout) (D : Vector Digit 8) : List Bit :=
  ([1, 0, 1] : List Bit) ++
  (patternModules (groupNumber 0 D[0]) ++ patternModules (groupNumber 1 D[1]) ++
    patternModules (groupNumber 2 D[2]) ++ patternModules (groupNumber 3 D[3])) ++
  (match l with | .l62 => ([0, 1, 0] : List Bit) | .l67 => [0, 1, 0, 1, 0]) ++
  (patternModules (groupNumber 4 D[4]) ++ patternModules (groupNumber 5 D[5]) ++
    patternModules (groupNumber 6 D[6]) ++ patternModules (groupNumber 7 D[7])) ++
  (match l with | .l62 => ([] : List Bit) | .l67 => [1, 0, 1])

/-- First module position of digit group `g` (R179: 3, 10, 17, 24, then 34.. in `L62` and 36.. in `L67`). -/
def firstPosition (l : Layout) (g : Nat) : Nat :=
  if g < 4 then 3 + 7 * g else (match l with | .l62 => 34 | .l67 => 36) + 7 * (g - 4)

/-- `ESTART` of a layout, as R11's table has it. -/
def endPosition : Layout → Nat
  | .l62 => 62
  | .l67 => 64

/-- The pixel `DEC` reads of the module at position `p` (R203, R205). -/
def samplePixel (s : State) (p : Nat) : Bit :=
  s.pixAt (s.pixh.toNat / 2 * s.pixw.toNat + s.margin.toNat + p * s.modw.toNat)

/-- The run of module `p` ends inside the row (R206). -/
def RunFits (s : State) (p : Nat) : Prop := s.margin.toNat + (p + 1) * s.modw.toNat ≤ s.pixw.toNat

/-- The seven runs of group `g` fit the row, and their samples are the pattern of digit `d` (R207). -/
def GroupShows (s : State) (g : Nat) (d : Digit) : Prop :=
  ∀ k, k < 7 → RunFits s (firstPosition s.config.layout g + k) ∧
    (patternModules (groupNumber g d))[k]? = some (samplePixel s (firstPosition s.config.layout g + k))

/-- The preconditions of `DEC` (R204). -/
def DecodeReady (s : State) : Prop :=
  s.modw ≠ 0 ∧ s.pixw ≠ 0 ∧ s.pixh ≠ 0 ∧ s.pixw.toNat * s.pixh.toNat ≤ s.config.pixCap.val ∧
    2 * s.margin.toNat < s.pixh.toNat

/-- `W` and `H` of R175. -/
def drawnWidth (s : State) : Nat := total s.config.layout * s.modw.toNat + 2 * s.margin.toNat
def drawnHeight (s : State) : Nat := s.barh.toNat + 2 * s.margin.toNat

/-- The geometry of `ENC` is legal and its matrix fits `PIX` (R174, R176). -/
def DrawReady (s : State) : Prop :=
  s.modw ≠ 0 ∧ s.barh ≠ 0 ∧ drawnWidth s * drawnHeight s ≤ s.config.pixCap.val

/-- `dec(n)`: the decimal digits of `n` as ASCII bytes, most significant first (R236). -/
def decimalBytes (n : Nat) : List Byte := ((Nat.digits 10 n).map (fun d => BitVec.ofNat 8 (0x30 + d))).reverse

/-- The first two lines of the text `BMW` writes (R234). -/
def headerBytes (W H : Nat) : List Byte :=
  [0x50, 0x31, 0x0A] ++ decimalBytes W ++ [0x20] ++ decimalBytes H ++ [0x0A]

/-- The matrix and the text fit their memories, and there is a matrix (R233). -/
def WriteReady (s : State) : Prop :=
  s.config.hasBmc = true ∧ s.pixw ≠ 0 ∧ s.pixh ≠ 0 ∧ s.pixw.toNat * s.pixh.toNat ≤ s.config.pixCap.val ∧
    (headerBytes s.pixw.toNat s.pixh.toNat).length + 2 * (s.pixw.toNat * s.pixh.toNat) ≤ s.config.txtCap.val

/-- `TXT[0..TXTLEN−1]` is the text `x`, and it lies inside `TXT` (R62, R240). -/
def HoldsText (s : State) (x : List Byte) : Prop :=
  s.config.hasBmc = true ∧ s.txtlen.toNat = x.length ∧ x.length ≤ s.config.txtCap.val ∧
    ∀ a (h : a < x.length), s.txtAt a = x[a]

/-- The four whitespace bytes (R232). -/
def IsSpace (c : Byte) : Prop := c = 0x20 ∨ c = 0x09 ∨ c = 0x0A ∨ c = 0x0D

/-- Blank and comment lines: whitespace, and comments from `#` to the LF that ends their line (R242). -/
inductive BlankLines : List Byte → Prop where
  | nil : BlankLines []
  | space {c : Byte} {cs : List Byte} : IsSpace c → BlankLines cs → BlankLines (c :: cs)
  | comment {body cs : List Byte} : (∀ c ∈ body, c ≠ 0x0A) → BlankLines cs →
      BlankLines ([0x23] ++ body ++ [0x0A] ++ cs)

/-- A run of one or more digit bytes and its value, leading zeros allowed (R243). -/
def IsNumber (ds : List Byte) (n : Nat) : Prop :=
  ds ≠ [] ∧ (∀ c ∈ ds, ¬ NotDigit c) ∧ n = Nat.ofDigits 10 (ds.map (fun c => c.toNat - 0x30)).reverse

/-- A text up to the pixel area: the magic token, blank and comment lines, the width, whitespace, the height (R241 to
R243). -/
def IsHeader (x : List Byte) (W H : Nat) : Prop :=
  ∃ c run w sp h, x = [0x50, 0x31, c] ++ run ++ w ++ sp ++ h ∧ IsSpace c ∧ BlankLines run ∧ IsNumber w W ∧
    sp ≠ [] ∧ (∀ c ∈ sp, IsSpace c) ∧ IsNumber h H

/-- The pixels of a pixel area in order: its `0` and `1` bytes (R244). -/
def areaPixels (area : List Byte) : List Bit :=
  (area.filter (fun c => c == 0x30 || c == 0x31)).map (fun c => if c = 0x31 then 1 else 0)

/-- Every byte of a pixel area is whitespace or a pixel (R244). -/
def AreaClean (area : List Byte) : Prop := ∀ c ∈ area, IsSpace c ∨ c = 0x30 ∨ c = 0x31

/-- The pixel area begins with whitespace, or there is none (R243). -/
def AreaDelimited (area : List Byte) : Prop := ∀ c, area.head? = some c → IsSpace c

/-- Two states agree on everything the command reads (R43), the configuration included. -/
def AgreeOnReads (i : Instr) (s u : State) : Prop :=
  s.config = u.config ∧
  match i with
  | .chk => s.idlen = u.idlen ∧ ∀ k (h : k < 7), s.idbuf[k] = u.idbuf[k]
  | .val => s.idlen = u.idlen ∧ ∀ k (h : k < 8), s.idbuf[k] = u.idbuf[k]
  | .lpat _ | .rpat _ | .lrev _ | .rrev _ | .urev _ => True
  | .enc => s.idlen = u.idlen ∧ (∀ k (h : k < 8), s.idbuf[k] = u.idbuf[k]) ∧ s.modw = u.modw ∧ s.barh = u.barh ∧
      s.margin = u.margin
  | .dec => s.modw = u.modw ∧ s.margin = u.margin ∧ s.pixw = u.pixw ∧ s.pixh = u.pixh ∧
      ∀ g k, g < 8 → k < 7 → samplePixel s (firstPosition s.config.layout g + k) =
        samplePixel u (firstPosition s.config.layout g + k)
  | .bmw => s.pixw = u.pixw ∧ s.pixh = u.pixh ∧ ∀ a, a < s.pixw.toNat * s.pixh.toNat → s.pixAt a = u.pixAt a
  | .bmr => s.txtlen = u.txtlen ∧ ∀ a, a < s.txtlen.toNat → s.txtAt a = u.txtAt a

/-- The kinds a command can raise (R285), by code. -/
def kindsOf : Instr → List Nat
  | .chk => [1]
  | .val | .lpat _ | .rpat _ | .lrev _ | .rrev _ | .urev _ => []
  | .enc => [1, 7, 8]
  | .dec => [4, 5, 6, 7, 8]
  | .bmw => [7, 8]
  | .bmr => [2, 3, 8]

/-- How many set bits a number below 128 has. -/
def onesIn (n : Nat) : Nat := ((List.range 7).map (fun k => n / 2 ^ k % 2)).sum

end Sys2Proof.Claims

open Sys2Proof.Claims

/-! ### Encoding -/

/-- Words written out from R91 to R94, `op` in the high byte: each decodes to the command it stands for. -/
def Obligations.HandwrittenWordsDecode : Prop :=
  ∀ c : Config, c.hasBmc = true →
    decode c 0x0100 = .ok .chk ∧ decode c 0x0200 = .ok .val ∧ decode c 0x1004 = .ok (.lpat 4) ∧
    decode c 0x1109 = .ok (.rpat 9) ∧ decode c 0x1223 = .ok (.lrev 0b0100011) ∧
    decode c 0x135C = .ok (.rrev 0b1011100) ∧ decode c 0x147F = .ok (.urev 0b1111111) ∧ decode c 0x2000 = .ok .enc ∧
    decode c 0x2100 = .ok .dec ∧ decode c 0x3000 = .ok .bmw ∧ decode c 0x3100 = .ok .bmr

/-- Decoding the word of a well-formed command gives the command back, whatever its operand (R94, R95). -/
def Obligations.EncodedCommandDecodesToItself : Prop :=
  ∀ (c : Config) (i : Instr), i.wellFormed c = true → decode c (encode i) = .ok i

/-- A word that decodes is the one word of the command it decodes to: no bit of it is dropped (R94, R97). -/
def Obligations.DecodedWordIsTheOnlyEncoding : Prop :=
  ∀ (c : Config) (w : CmdWord) (i : Instr), decode c w = .ok i → i.wellFormed c = true ∧ encode i = w

/-- R97: a word is refused exactly when it is on the list, 410 words are legal with `HAS_BMC` = 1 and 408 with 0, and an
illegal word executes as a command that fails with `E_ILLEGAL` and changes nothing else. -/
def Obligations.IllegalWordsAreThoseListed : Prop :=
  ∀ c : Config,
    (∀ w : CmdWord, (∃ e, decode c w = .error e) ↔ IllegalWord c w) ∧
    (∃ ws : List CmdWord, ws.Nodup ∧ ws.length = (if c.hasBmc then 410 else 408) ∧
      ∀ w, w ∈ ws ↔ ∃ i, decode c w = .ok i) ∧
    (∀ (s : State) (w : CmdWord), s.config = c → IllegalWord c w → issue w s = .next (failed s 9))

/-! ### Steps and host transactions -/

/-- A write of `CMD` runs the command its low 16 bits decode to, with the transaction off the script and no reply
pending; and `withFetchWord` puts exactly that in front (R22, R90). The script is the model's form of the host (log
entry 4). -/
def Obligations.StepRunsTheDecodedCommand : Prop :=
  (∀ (s : State) (v : Word) (rest : List Transaction) (i : Instr), s.script = .regWrite 0x00 v :: rest →
    decode s.config (BitVec.ofNat 16 v.toNat) = .ok i → step s = exec i (taken s rest)) ∧
  (∀ (s : State) (w : Nat) (i : Instr), decode s.config (BitVec.ofNat 16 w) = .ok i →
    step (s.withFetchWord 16 w) = exec i (taken s s.script))

/-- R278: an illegal word, written to `CMD`, changes `ERR` and `ESTICKY[9]` and nothing else of the block. -/
def Obligations.IllegalWordOnlyRecordsItself : Prop :=
  ∀ (s : State) (v : Word) (rest : List Transaction), s.script = .regWrite 0x00 v :: rest →
    IllegalWord s.config (BitVec.ofNat 16 v.toNat) →
      step s = .next { taken s rest with err := 9, esticky := s.esticky ||| 0b1000000000 }

/-- With no transaction waiting the block holds its state (R291, R333); that there is a step at all is the model's choice
(log entry 4). -/
def Obligations.IdleBlockHoldsItsState : Prop :=
  ∀ s : State, s.script = [] → step s = .next s

/-- R41: a read returns the zero-extended value and changes nothing, a write stores the low bits, and read-only and
unassigned numbers ignore it. `CMD` (number 0) reads 0; its write is a command and is stated elsewhere. -/
def Obligations.RegisterAccessFollowsTheTable : Prop :=
  ∀ (s : State) (n : Nat) (rest : List Transaction),
    (s.script = .regRead n :: rest →
      step s = .next { taken s rest with reply := some (BitVec.ofNat 32 (registerValue s n)) }) ∧
    (∀ v : Word, s.script = .regWrite n v :: rest → n ≠ 0x00 → step s = .next (registerWritten (taken s rest) n v))

/-- R24: a failing command, an illegal word included, sets the bit of its code; no command clears a bit; a host write
clears the bits that are 1 in it and leaves the others; reset clears all; and bit 0 stays 0. -/
def Obligations.StickyBitsFollowTheirRule : Prop :=
  (∀ (w : CmdWord) (s t : State) (k : Nat), issue w s = .next t → 1 ≤ k → k ≤ 9 →
    t.esticky.getLsbD k = (s.esticky.getLsbD k || decide (t.err.toNat = k))) ∧
  (∀ (s t : State) (v : Word) (rest : List Transaction) (k : Nat), s.script = .regWrite 0x02 v :: rest →
    step s = .next t → k ≤ 9 → t.esticky.getLsbD k = (s.esticky.getLsbD k && !v.getLsbD k)) ∧
  (∀ (s t : State) (rest : List Transaction), s.script = .reset :: rest → step s = .next t → t.esticky = 0) ∧
  (∀ s t : State, s.esticky.getLsbD 0 = false → step s = .next t → t.esticky.getLsbD 0 = false)

/-- Access to `PIX` (R64): a read returns the bit zero-extended and changes nothing; a write stores bit 0 of the word,
and the next reads of that cell return it while every other cell reads as before. -/
def Obligations.PixelTransactionsReachOneCell : Prop :=
  ∀ (s : State) (a : Nat) (rest : List Transaction), a < s.config.pixCap.val →
    (s.script = .pixRead a :: rest →
      step s = .next { taken s rest with reply := some (BitVec.ofNat 32 (s.pixAt a).toNat) }) ∧
    (∀ v : Word, s.script = .pixWrite a v :: rest → ∃ t, step s = .next t ∧
      t = { taken s rest with pix := t.pix } ∧ (t.pixAt a).toNat = v.toNat % 2 ∧
      ∀ b, b ≠ a → t.pixAt b = s.pixAt b)

/-- Access to `TXT` (R64), likewise, one byte at a time. -/
def Obligations.TextTransactionsReachOneByte : Prop :=
  ∀ (s : State) (a : Nat) (rest : List Transaction), s.config.hasBmc = true → a < s.config.txtCap.val →
    (s.script = .txtRead a :: rest →
      step s = .next { taken s rest with reply := some (BitVec.ofNat 32 (s.txtAt a).toNat) }) ∧
    (∀ v : Word, s.script = .txtWrite a v :: rest → ∃ t, step s = .next t ∧
      t = { taken s rest with txt := t.txt } ∧ (t.txtAt a).toNat = v.toNat % 256 ∧
      ∀ b, b ≠ a → t.txtAt b = s.txtAt b)

/-- R69: the only transactions without a step are accesses to `PIX` or `TXT` at or above the capacity, or to `TXT` when
`HAS_BMC` = 0; each of these is refused; everything else has a next state (R284). -/
def Obligations.OnlyAccessOutsideMemoryIsRefused : Prop :=
  ∀ s : State,
    (∀ a rest, (s.script = .pixRead a :: rest ∨ ∃ v, s.script = .pixWrite a v :: rest) → s.config.pixCap.val ≤ a →
      ∃ r, step s = .refused r) ∧
    (∀ a rest, (s.script = .txtRead a :: rest ∨ ∃ v, s.script = .txtWrite a v :: rest) → s.config.hasBmc = false →
      ∃ r, step s = .refused r) ∧
    (∀ a rest, (s.script = .txtRead a :: rest ∨ ∃ v, s.script = .txtWrite a v :: rest) → s.config.hasBmc = true →
      s.config.txtCap.val ≤ a → ∃ r, step s = .refused r) ∧
    ((∀ a rest, (s.script = .pixRead a :: rest ∨ ∃ v, s.script = .pixWrite a v :: rest) → a < s.config.pixCap.val) →
      (∀ a rest, (s.script = .txtRead a :: rest ∨ ∃ v, s.script = .txtWrite a v :: rest) →
        s.config.hasBmc = true ∧ a < s.config.txtCap.val) →
      ∃ t, step s = .next t)

/-- R310: after `Reset` every register has the value of R40's table, whatever it was; the configuration is unchanged;
and a second `Reset` changes no register. The cells of the memories are unspecified, so nothing is said of them. -/
def Obligations.HostResetGivesTheResetValues : Prop :=
  ∀ (s : State) (rest : List Transaction), s.script = .reset :: rest →
    ∃ t, step s = .next t ∧ t.err = 0 ∧ t.esticky = 0 ∧ t.res = 0 ∧ t.idlen = 0 ∧ t.modw = 0 ∧ t.barh = 0 ∧
      t.margin = 0 ∧ t.pixw = 0 ∧ t.pixh = 0 ∧ t.txtlen = 0 ∧ (∀ i (h : i < 15), t.idbuf[i] = 0) ∧
      (∀ i (h : i < 8), t.outid[i] = 0) ∧ t.config = s.config ∧ t.script = rest ∧
      ∀ (u v : State) (more : List Transaction), u = { t with script := .reset :: more } → step u = .next v →
        { v with pix := t.pix, txt := t.txt, draws := t.draws, script := t.script } = t

/-- R40, R12: what `State.reset` holds. That it is a block with the spec's own parameter values is the model's choice (log
entry 1). -/
def Obligations.ResetStateHasTheSpecifiedValues : Prop :=
  State.reset.err = 0 ∧ State.reset.esticky = 0 ∧ State.reset.res = 0 ∧ State.reset.idlen = 0 ∧ State.reset.modw = 0 ∧
  State.reset.barh = 0 ∧ State.reset.margin = 0 ∧ State.reset.pixw = 0 ∧ State.reset.pixh = 0 ∧
  State.reset.txtlen = 0 ∧ (∀ i (h : i < 15), State.reset.idbuf[i] = 0) ∧ (∀ i (h : i < 8), State.reset.outid[i] = 0) ∧
  (regRead 0x0B State.reset).reply = some 0x13E ∧ State.reset.config.pixCap.val = 2 ^ 20 ∧
  State.reset.config.txtCap.val = 2 * 2 ^ 20 + 32

/-- R313: the first command after reset, with no register written, in a block of any configuration. -/
def Obligations.FirstCommandAfterReset : Prop :=
  ∀ (c : Config) (n : Nat) (ts : List Transaction), let s := State.cleared c n ts
    exec .chk s = .next (failed s 1) ∧ exec .val s = .next { s with res := 0, err := 0 } ∧
    (∀ d : BitVec 4, d.toNat ≤ 9 →
      exec (.lpat d) s = .next { s with res := BitVec.ofNat 8 (groupNumber 0 (Fin.ofNat 10 d.toNat)) } ∧
      exec (.rpat d) s = .next { s with res := BitVec.ofNat 8 (groupNumber 4 (Fin.ofNat 10 d.toNat)) }) ∧
    (∀ pat : Pattern, ∀ i ∈ [Instr.lrev pat, Instr.rrev pat, Instr.urev pat], ∀ u : State,
      ∃ r, exec i s = .next { s with res := r } ∧ exec i u = .next { u with res := r, err := 0 }) ∧
    exec .enc s = .next (failed s 1) ∧ exec .dec s = .next (failed s 7) ∧
    (c.hasBmc = true → exec .bmw s = .next (failed s 7) ∧ exec .bmr s = .next (failed s 2))

/-! ### Checksum unit -/

/-- R123: `CHK`, its word, its answer, and when it raises `InvalidIdentifier`. -/
def Obligations.ChkAnswersTheCheckDigit : Prop :=
  (∀ c, decode c 0x0100 = .ok .chk) ∧
  (∀ (s : State) (D : Vector Digit 8), 7 ≤ s.idlen.toNat → (∀ i (h : i < 7), s.idbuf[i].toNat = 0x30 + D[i].val) →
    exec .chk s = .next { s with res := BitVec.ofNat 8 (checkSumDigit D), err := 0 }) ∧
  (∀ s : State, (s.idlen.toNat < 7 ∨ ∃ i, ∃ h : i < 7, NotDigit s.idbuf[i]) →
    exec .chk s = .next { s with err := 1, esticky := s.esticky ||| 0b10 })

/-- R125: `VAL` answers 1 exactly on an identifier, and never fails. -/
def Obligations.ValAnswersWhetherIdentifier : Prop :=
  (∀ c, decode c 0x0200 = .ok .val) ∧
  (∀ (s : State) (D : Vector Digit 8), HoldsIdentifier s D → exec .val s = .next { s with res := 0x01, err := 0 }) ∧
  (∀ s : State, (¬ ∃ D, HoldsIdentifier s D) → exec .val s = .next { s with res := 0x00, err := 0 })

/-- R122: the second form of the check digit, on the whole range R122 names and for every payload. -/
def Obligations.CheckDigitFormsAgree : Prop :=
  (∀ n : Nat, n ≤ 189 → (10 - n % 10) % 10 = (n + 9) / 10 * 10 - n) ∧
  (∀ p : Vector Digit 7, (checkDigit p).val = (weightedSum p + 9) / 10 * 10 - weightedSum p)

/-- R127: payload closure. The eight characters of a payload and a digit are an identifier exactly when the digit is the
check digit, which is below 10. -/
def Obligations.PayloadClosure : Prop :=
  ∀ D : Vector Digit 8, checkSumDigit D ≤ 9 ∧
    (valid ((List.range 8).map (fun i => BitVec.ofNat 8 (0x30 + ((D[i]?).getD 0).val))) = true ↔
      D[7].val = checkSumDigit D)

/-- The host's use of `CHK` (R329): after a successful `CHK`, with `chr(RES)` in `IDBUF[7]` and `IDLEN` = 8, `VAL`
answers 1. -/
def Obligations.ChkThenValAccepts : Prop :=
  ∀ s t : State, exec .chk s = .next t → t.err = 0 →
    ∃ u, exec .val { t with idbuf := t.idbuf.set 7 (0x30 + t.res), idlen := 8 } = .next u ∧ u.res = 1 ∧ u.err = 0

/-! ### Symbol-table unit -/

/-- R143, R144: `LPAT` and `RPAT`, their words and their answers; the words with `d` above 9 are illegal. -/
def Obligations.PatternLookupsReadTheTables : Prop :=
  ∀ d : BitVec 4,
    (d.toNat ≤ 9 →
      (∀ c, decode c (BitVec.ofNat 16 (0x1000 + d.toNat)) = .ok (.lpat d) ∧
        decode c (BitVec.ofNat 16 (0x1100 + d.toNat)) = .ok (.rpat d)) ∧
      ∀ (s : State) (l r : Nat), leftNumbers[d.toNat]? = some l → rightNumbers[d.toNat]? = some r →
        exec (.lpat d) s = .next { s with res := BitVec.ofNat 8 l, err := 0 } ∧
        exec (.rpat d) s = .next { s with res := BitVec.ofNat 8 r, err := 0 }) ∧
    (9 < d.toNat → ∀ s : State, issue (BitVec.ofNat 16 (0x1000 + d.toNat)) s = .next (failed s 9) ∧
      issue (BitVec.ofNat 16 (0x1100 + d.toNat)) s = .next (failed s 9))

/-- R146, R147, R148: the reverse lookups, their words and their answers. A pattern in no table is the answer 0. -/
def Obligations.ReverseLookupsFindTheDigit : Prop :=
  ∀ (pat : Pattern) (s : State),
    (∀ c, decode c (BitVec.ofNat 16 (0x1200 + pat.toNat)) = .ok (.lrev pat) ∧
      decode c (BitVec.ofNat 16 (0x1300 + pat.toNat)) = .ok (.rrev pat) ∧
      decode c (BitVec.ofNat 16 (0x1400 + pat.toNat)) = .ok (.urev pat)) ∧
    (∀ d, leftNumbers[d]? = some pat.toNat →
      exec (.lrev pat) s = .next { s with res := BitVec.ofNat 8 (0x80 + d), err := 0 } ∧
      exec (.urev pat) s = .next { s with res := BitVec.ofNat 8 (0x80 + d), err := 0 }) ∧
    (∀ d, rightNumbers[d]? = some pat.toNat →
      exec (.rrev pat) s = .next { s with res := BitVec.ofNat 8 (0x80 + d), err := 0 } ∧
      exec (.urev pat) s = .next { s with res := BitVec.ofNat 8 (0x80 + d), err := 0 }) ∧
    (pat.toNat ∉ leftNumbers → exec (.lrev pat) s = .next { s with res := 0, err := 0 }) ∧
    (pat.toNat ∉ rightNumbers → exec (.rrev pat) s = .next { s with res := 0, err := 0 }) ∧
    (pat.toNat ∉ leftNumbers → pat.toNat ∉ rightNumbers → exec (.urev pat) s = .next { s with res := 0, err := 0 })

/-- R142: the six properties of the tables the block looks up in. -/
def Obligations.SymbolTableProperties : Prop :=
  (∀ d : Digit, rtab[d].toNat = 127 - ltab[d].toNat) ∧
  ((ltab.toList ++ rtab.toList).Nodup) ∧
  (∀ d : Digit, ltab[d].toNat % 2 = 1 ∧ ltab[d].toNat < 64 ∧ rtab[d].toNat % 2 = 0 ∧ 64 ≤ rtab[d].toNat) ∧
  (∀ d : Digit, (onesIn ltab[d].toNat = 3 ∨ onesIn ltab[d].toNat = 5) ∧
    (onesIn rtab[d].toNat = 2 ∨ onesIn rtab[d].toNat = 4)) ∧
  ((∀ t ∈ ltab.toList ++ rtab.toList, ∀ u ∈ ltab.toList ++ rtab.toList, t ≠ u → 2 ≤ onesIn (t ^^^ u).toNat) ∧
    (∃ t ∈ ltab.toList, ∃ u ∈ ltab.toList, onesIn (t ^^^ u).toNat = 2) ∧
    (∃ t ∈ rtab.toList, ∃ u ∈ rtab.toList, onesIn (t ^^^ u).toNat = 2)) ∧
  (((List.range 128).filter (fun n => (lrev (BitVec.ofNat 7 n)).isSome)).length = 10 ∧
    ((List.range 128).filter (fun n => (rrev (BitVec.ofNat 7 n)).isSome)).length = 10 ∧
    ((List.range 128).filter (fun n => (urev (BitVec.ofNat 7 n)).isNone)).length = 108)

/-- The pattern half of R149: a table pattern with one bit flipped is in neither table. -/
def Obligations.FlippedPatternIsUnknown : Prop :=
  ∀ (d : Digit) (k : Fin 7), urev (ltab[d] ^^^ BitVec.twoPow 7 k.val) = none ∧
    urev (rtab[d] ^^^ BitVec.twoPow 7 k.val) = none

/-! ### Encoder unit -/

/-- R175, R177, R179: what `ENC` draws. It answers a next state on every identifier and every legal geometry that fits;
the pixel in column `x` and row `y` is at `y·W + x` (R61), cells beyond the matrix keep what they held (R328), and nothing
else changes. -/
def Obligations.EncDrawsTheSymbol : Prop :=
  ∀ (s : State) (D : Vector Digit 8), HoldsIdentifier s D → DrawReady s →
    0 < drawnWidth s ∧ 0 < drawnHeight s ∧
    ∃ t, exec .enc s = .next t ∧ t.pixw.toNat = drawnWidth s ∧ t.pixh.toNat = drawnHeight s ∧
      (∀ x y, x < drawnWidth s → y < drawnHeight s →
        (y < s.margin.toNat ∨ drawnHeight s - s.margin.toNat ≤ y ∨ x < s.margin.toNat ∨
            drawnWidth s - s.margin.toNat ≤ x → t.pixAt (y * drawnWidth s + x) = 0) ∧
        (s.margin.toNat ≤ y → y < drawnHeight s - s.margin.toNat → s.margin.toNat ≤ x →
            x < drawnWidth s - s.margin.toNat →
          (symbolModules s.config.layout D)[(x - s.margin.toNat) / s.modw.toNat]? =
            some (t.pixAt (y * drawnWidth s + x)))) ∧
      (∀ a, drawnWidth s * drawnHeight s ≤ a → t.pixAt a = s.pixAt a) ∧
      t = { s with pixw := t.pixw, pixh := t.pixh, pix := t.pix, err := 0 }

/-- R173, R174, R176: the errors of `ENC`, the first that applies. -/
def Obligations.EncErrorsInOrder : Prop :=
  ∀ s : State,
    ((¬ ∃ D, HoldsIdentifier s D) → exec .enc s = .next (failed s 1)) ∧
    (∀ D, HoldsIdentifier s D → (s.modw = 0 ∨ s.barh = 0) → exec .enc s = .next (failed s 7)) ∧
    (∀ D, HoldsIdentifier s D → s.modw ≠ 0 → s.barh ≠ 0 → s.config.pixCap.val < drawnWidth s * drawnHeight s →
      exec .enc s = .next (failed s 8))

/-! ### Decoder unit -/

/-- R201's success path: when the eight groups show digits whose check digit is right, `DEC` writes their characters to
`OUTID`, sets `ERR` to 0, and changes nothing else (R211). -/
def Obligations.DecRecoversTheDigits : Prop :=
  ∀ (s : State) (D : Vector Digit 8), DecodeReady s → (∀ g (h : g < 8), GroupShows s g D[g]) →
    checkSumDigit D = D[7].val →
    ∃ t, exec .dec s = .next t ∧ (∀ i (h : i < 8), t.outid[i].toNat = 0x30 + D[i].val) ∧
      t = { s with outid := t.outid, err := 0 }

/-- R204: the preconditions of `DEC`, tested in this order before any pixel is read. -/
def Obligations.DecPreconditionsInOrder : Prop :=
  ∀ s : State,
    (s.modw = 0 → exec .dec s = .next (failed s 7)) ∧
    (s.modw ≠ 0 → (s.pixw = 0 ∨ s.pixh = 0) → exec .dec s = .next (failed s 6)) ∧
    (s.modw ≠ 0 → s.pixw ≠ 0 → s.pixh ≠ 0 → s.config.pixCap.val < s.pixw.toNat * s.pixh.toNat →
      exec .dec s = .next (failed s 8)) ∧
    (s.modw ≠ 0 → s.pixw ≠ 0 → s.pixh ≠ 0 → s.pixw.toNat * s.pixh.toNat ≤ s.config.pixCap.val →
      s.pixh.toNat ≤ 2 * s.margin.toNat → exec .dec s = .next (failed s 6))

/-- R206, R207, R208, R210: the walk. With groups 0..`g`−1 good, a run of group `g` that leaves the row is
`MalformedBarcode` and seven samples in no pattern of the group's table are `UnrecognizedPattern`; with all eight good, a
wrong check digit is `ChecksumMismatch`. -/
def Obligations.DecWalkStopsAtTheFirstError : Prop :=
  ∀ s : State, DecodeReady s →
    (∀ (g k : Nat), g < 8 → (∀ g', g' < g → ∃ d, GroupShows s g' d) → k < 7 →
      ¬ RunFits s (firstPosition s.config.layout g + k) → exec .dec s = .next (failed s 6)) ∧
    (∀ g, g < 8 → (∀ g', g' < g → ∃ d, GroupShows s g' d) →
      (∀ k, k < 7 → RunFits s (firstPosition s.config.layout g + k)) → (¬ ∃ d, GroupShows s g d) →
      exec .dec s = .next (failed s 4)) ∧
    (∀ D : Vector Digit 8, (∀ g (h : g < 8), GroupShows s g D[g]) → checkSumDigit D ≠ D[7].val →
      exec .dec s = .next (failed s 5))

/-- R209: `DEC` reads the 56 sampled pixels and no other. Two states that agree on them, on `MODW`, `MARGIN`, `PIXW`,
`PIXH` and on the configuration give the same error and, on success, the same identifier, whatever the guards and every
other pixel and register hold. -/
def Obligations.DecIgnoresUnsampledPixels : Prop :=
  ∀ s u t v : State, AgreeOnReads .dec s u → exec .dec s = .next t → exec .dec u = .next v →
    t.err = v.err ∧ (t.err = 0 → t.outid = v.outid)

/-! ### Bitmap text unit -/

/-- R234, R235, R236: the bytes `BMW` writes, and that it writes no other byte and changes nothing else (R233). -/
def Obligations.BmwWritesTheText : Prop :=
  ∀ s : State, WriteReady s →
    let head := headerBytes s.pixw.toNat s.pixh.toNat
    ∃ t, exec .bmw s = .next t ∧
      t.txtlen.toNat = head.length + 2 * (s.pixw.toNat * s.pixh.toNat) ∧
      (∀ a (h : a < head.length), t.txtAt a = head[a]) ∧
      (∀ x y, x < s.pixw.toNat → y < s.pixh.toNat →
        (t.txtAt (head.length + 2 * (y * s.pixw.toNat + x))).toNat = 0x30 + (s.pixAt (y * s.pixw.toNat + x)).toNat ∧
        t.txtAt (head.length + 2 * (y * s.pixw.toNat + x) + 1) = if x + 1 = s.pixw.toNat then 0x0A else 0x20) ∧
      (∀ a, t.txtlen.toNat ≤ a → t.txtAt a = s.txtAt a) ∧
      t = { s with txt := t.txt, txtlen := t.txtlen, err := 0 }

/-- The errors of `BMW` in the order of R233 and R276. -/
def Obligations.BmwErrorsInOrder : Prop :=
  ∀ s : State, s.config.hasBmc = true →
    ((s.pixw = 0 ∨ s.pixh = 0) → exec .bmw s = .next (failed s 7)) ∧
    (s.pixw ≠ 0 → s.pixh ≠ 0 → s.config.pixCap.val < s.pixw.toNat * s.pixh.toNat → exec .bmw s = .next (failed s 8)) ∧
    (s.pixw ≠ 0 → s.pixh ≠ 0 → s.config.txtCap.val <
        (headerBytes s.pixw.toNat s.pixh.toNat).length + 2 * (s.pixw.toNat * s.pixh.toNat) →
      exec .bmw s = .next (failed s 8))

/-- R244, R245, R246: the pixel area after a good header whose matrix fits `PIX`. A byte that is neither whitespace nor a
pixel, or a pixel too many, is `MalformedHeader`; too few is `TruncatedData`; the exact count is the matrix, committed to
`PIXW`, `PIXH` and `PIX` and nothing else. -/
def Obligations.BmrReadsThePixelArea : Prop :=
  ∀ (s : State) (x area : List Byte) (W H : Nat), HoldsText s (x ++ area) → IsHeader x W H → AreaDelimited area →
    W ≠ 0 → H ≠ 0 → W * H ≤ s.config.pixCap.val →
    (¬ AreaClean area → exec .bmr s = .next (failed s 2)) ∧
    (AreaClean area → W * H < (areaPixels area).length → exec .bmr s = .next (failed s 2)) ∧
    (AreaClean area → (areaPixels area).length < W * H → exec .bmr s = .next (failed s 3)) ∧
    (AreaClean area → (areaPixels area).length = W * H →
      ∃ t, exec .bmr s = .next t ∧ t.pixw.toNat = W ∧ t.pixh.toNat = H ∧
        (∀ a, a < W * H → (areaPixels area)[a]? = some (t.pixAt a)) ∧
        (∀ a, W * H ≤ a → t.pixAt a = s.pixAt a) ∧
        t = { s with pixw := t.pixw, pixh := t.pixh, pix := t.pix, err := 0 })

/-- R241: a text that does not begin with the magic token as its own token is `MalformedHeader`; `TXTLEN` above `TXT_CAP`
is `E_CAPACITY` before that (R240). -/
def Obligations.BmrRequiresTheMagicToken : Prop :=
  (∀ (s : State) (x : List Byte), HoldsText s x →
    (¬ ∃ rest, x = 0x50 :: 0x31 :: rest ∧ ∀ c, rest.head? = some c → IsSpace c) → exec .bmr s = .next (failed s 2)) ∧
  (∀ s : State, s.config.hasBmc = true → s.config.txtCap.val < s.txtlen.toNat → exec .bmr s = .next (failed s 8))

/-- R243: the errors of the dimensions, after the magic token and any blank and comment lines (R242): a missing number,
also when the text ends with the token or in a comment, a width not closed by whitespace, a height closed by neither
whitespace nor the end, a zero, and then the capacity. -/
def Obligations.BmrChecksTheDimensions : Prop :=
  (∀ s : State, HoldsText s [0x50, 0x31] → exec .bmr s = .next (failed s 2)) ∧
  (∀ (s : State) (c : Byte) (run tail : List Byte), HoldsText s ([0x50, 0x31, c] ++ run ++ tail) → IsSpace c →
    BlankLines run →
    ((∀ d, tail.head? = some d → NotDigit d ∧ ¬ IsSpace d ∧ d ≠ 0x23) → exec .bmr s = .next (failed s 2)) ∧
    (∀ body, tail = 0x23 :: body → (∀ d ∈ body, d ≠ 0x0A) → exec .bmr s = .next (failed s 2)) ∧
    (∀ w W rest, tail = w ++ rest → IsNumber w W → (∀ d, rest.head? = some d → NotDigit d ∧ ¬ IsSpace d) →
      exec .bmr s = .next (failed s 2)) ∧
    (∀ w W sp rest, tail = w ++ sp ++ rest → IsNumber w W → sp ≠ [] → (∀ d ∈ sp, IsSpace d) →
      (∀ d, rest.head? = some d → NotDigit d ∧ ¬ IsSpace d) → exec .bmr s = .next (failed s 2)) ∧
    (∀ w W sp h H d rest, tail = w ++ sp ++ h ++ d :: rest → IsNumber w W → sp ≠ [] → (∀ d ∈ sp, IsSpace d) →
      IsNumber h H → NotDigit d → ¬ IsSpace d → exec .bmr s = .next (failed s 2)) ∧
    (∀ w W sp h H area, tail = w ++ sp ++ h ++ area → IsNumber w W → sp ≠ [] → (∀ d ∈ sp, IsSpace d) →
      IsNumber h H → AreaDelimited area →
      ((W = 0 ∨ H = 0) → exec .bmr s = .next (failed s 2)) ∧
      (W ≠ 0 → H ≠ 0 → s.config.pixCap.val < W * H → exec .bmr s = .next (failed s 8))))

/-! ### All commands -/

/-- R279, R280: a command ends in exactly one of two ways. It fails with one code, and then the state differs only in
`ERR` and that bit of `ESTICKY`; or it succeeds, and then `ERR` is 0 and `ESTICKY` is unchanged. -/
def Obligations.CommandFailsCleanlyOrSucceeds : Prop :=
  ∀ (i : Instr) (s : State), ∃ t, exec i s = .next t ∧
    ((∃ k, 1 ≤ k ∧ k ≤ 9 ∧ t = failed s k) ∨ (t.err = 0 ∧ t.esticky = s.esticky))

/-- R285: which command can raise which kind, and no other; for a block that has the command. -/
def Obligations.ErrorKindsPerCommand : Prop :=
  (∀ (i : Instr) (s t : State), i.wellFormed s.config = true → exec i s = .next t → t.err ≠ 0 →
    t.err.toNat ∈ kindsOf i) ∧
  (∀ i ∈ [Instr.chk, .enc, .dec, .bmw, .bmr], ∀ k ∈ kindsOf i, ∃ s t : State, i.wellFormed s.config = true ∧
    exec i s = .next t ∧ t.err.toNat = k) ∧
  (∀ (s : State) (w : CmdWord), IllegalWord s.config w → issue w s = .next (failed s 9))

/-- The frame of every command (R43, the column of writes): what each leaves as it was. No command writes `IDLEN`,
`IDBUF`, `MODW`, `BARH`, `MARGIN` or the configuration; `RES` is written by the seven scalar commands only; `OUTID` by
`DEC` only; the matrix by `ENC` and `BMR` only, below `W·H`; the text by `BMW` only, below its length. -/
def Obligations.CommandsWriteOnlyTheirState : Prop :=
  ∀ (i : Instr) (s t : State), exec i s = .next t →
    (t.idlen = s.idlen ∧ t.idbuf = s.idbuf ∧ t.modw = s.modw ∧ t.barh = s.barh ∧ t.margin = s.margin ∧
      t.config = s.config ∧ t.script = s.script ∧ t.reply = s.reply ∧ t.draws = s.draws) ∧
    (i ∈ [.enc, .dec, .bmw, .bmr] → t.res = s.res) ∧
    (i ≠ .dec → t.outid = s.outid) ∧
    (i ≠ .enc → i ≠ .bmr → t.pixw = s.pixw ∧ t.pixh = s.pixh ∧ ∀ a, t.pixAt a = s.pixAt a) ∧
    (i ≠ .bmw → t.txtlen = s.txtlen ∧ ∀ a, t.txtAt a = s.txtAt a) ∧
    (i = .enc → ∀ a, drawnWidth s * drawnHeight s ≤ a → t.pixAt a = s.pixAt a) ∧
    (i = .bmr → ∀ a, t.pixw.toNat * t.pixh.toNat ≤ a → t.pixAt a = s.pixAt a) ∧
    (i = .bmw → ∀ a, t.txtlen.toNat ≤ a → t.txtAt a = s.txtAt a)

/-- The column of reads of R43: two states that agree on what a command reads give the same error, the same scalar
result, the same recovered identifier, the same matrix and the same text. -/
def Obligations.CommandsReadOnlyTheirState : Prop :=
  ∀ (i : Instr) (s u t v : State), AgreeOnReads i s u → exec i s = .next t → exec i u = .next v →
    t.err = v.err ∧
    (t.err = 0 →
      (i ∉ [.enc, .dec, .bmw, .bmr] → t.res = v.res) ∧
      (i = .dec → t.outid = v.outid) ∧
      (i = .enc ∨ i = .bmr → t.pixw = v.pixw ∧ t.pixh = v.pixh ∧
        ∀ a, a < t.pixw.toNat * t.pixh.toNat → t.pixAt a = v.pixAt a) ∧
      (i = .bmw → t.txtlen = v.txtlen ∧ ∀ a, a < t.txtlen.toNat → t.txtAt a = v.txtAt a))

/-- R284: re-issuing a failed command in the state it left fails in the same way and leaves that state as it is. -/
def Obligations.FailedCommandFailsAgain : Prop :=
  ∀ (i : Instr) (s t : State), exec i s = .next t → t.err ≠ 0 → exec i t = .next t

/-- No step changes the configuration, so `CFG` is constant (R31); and the geometry and the input identifier change only
in a step whose transaction is a host write of a register other than `CMD`, or a reset (R26 to R30). -/
def Obligations.OnlyTheHostChangesOperands : Prop :=
  ∀ s t : State, step s = .next t → t.config = s.config ∧
    ((t.modw ≠ s.modw ∨ t.barh ≠ s.barh ∨ t.margin ≠ s.margin ∨ t.idlen ≠ s.idlen ∨ t.idbuf ≠ s.idbuf) →
      ∃ rest, s.script = .reset :: rest ∨ ∃ n v, s.script = .regWrite n v :: rest ∧ n ≠ 0x00)

/-! ### Laws of the codec -/

/-- R212: the round trip. What `ENC` drew, `DEC` recovers, in any state with the same geometry, matrix and configuration;
and with another margin it may not. -/
def Obligations.DecodeRecoversWhatEncodeDrew : Prop :=
  (∀ s t u : State, exec .enc s = .next t → t.err = 0 → u.config = t.config → u.modw = t.modw → u.margin = t.margin →
    u.pixw = t.pixw → u.pixh = t.pixh → (∀ a, a < t.pixw.toNat * t.pixh.toNat → u.pixAt a = t.pixAt a) →
    ∃ v, exec .dec u = .next v ∧ v.err = 0 ∧ ∀ i (h : i < 8), v.outid[i] = s.idbuf[i]) ∧
  (∃ s t u v : State, exec .enc s = .next t ∧ t.err = 0 ∧ u = { t with margin := u.margin } ∧
    exec .dec u = .next v ∧ v.err ≠ 0)

/-- R213: one flipped pixel of a drawn matrix. At one of the 56 sampled addresses `DEC` fails with
`UnrecognizedPattern`; at any other it recovers the same identifier. It never recovers a different one. -/
def Obligations.FlippedPixelIsNoticedOrHarmless : Prop :=
  ∀ (s t u v : State) (a : Nat), exec .enc s = .next t → t.err = 0 → a < t.pixw.toNat * t.pixh.toNat →
    u.config = t.config → u.modw = t.modw → u.margin = t.margin → u.pixw = t.pixw → u.pixh = t.pixh →
    u.pixAt a ≠ t.pixAt a → (∀ b, b ≠ a → u.pixAt b = t.pixAt b) → exec .dec u = .next v →
    ((∃ g k, g < 8 ∧ k < 7 ∧ a = u.pixh.toNat / 2 * u.pixw.toNat + u.margin.toNat +
        (firstPosition u.config.layout g + k) * u.modw.toNat) → v = failed u 4) ∧
    ((¬ ∃ g k, g < 8 ∧ k < 7 ∧ a = u.pixh.toNat / 2 * u.pixw.toNat + u.margin.toNat +
        (firstPosition u.config.layout g + k) * u.modw.toNat) →
      v.err = 0 ∧ ∀ i (h : i < 8), v.outid[i] = s.idbuf[i])

/-- R247: what `BMW` wrote, `BMR` reads back, for every matrix, in any state with the same text and configuration; and
`BMW` after `BMR` need not give back the text that was read. -/
def Obligations.ReadRecoversWhatWriteWrote : Prop :=
  (∀ s t u : State, exec .bmw s = .next t → t.err = 0 → u.config = t.config → u.txtlen = t.txtlen →
    (∀ a, a < t.txtlen.toNat → u.txtAt a = t.txtAt a) →
    ∃ v, exec .bmr u = .next v ∧ v.err = 0 ∧ v.pixw = s.pixw ∧ v.pixh = s.pixh ∧
      ∀ a, a < s.pixw.toNat * s.pixh.toNat → v.pixAt a = s.pixAt a) ∧
  (∃ s t u : State, exec .bmr s = .next t ∧ t.err = 0 ∧ exec .bmw t = .next u ∧ u.err = 0 ∧ u.txtlen ≠ s.txtlen)

/-! ### The invariant -/

/-- Every step keeps a sound state sound: `ERR` is a code, bit 0 of `ESTICKY` is 0, `RES` has one of its layouts, `OUTID`
is zeros or an identifier, the memories are canonical and inside their capacities, and a block without the bitmap text
unit has no text. The canonical form and the fields of an absent unit are the model's (log entries 2 and 10). -/
def Obligations.StepKeepsSound : Prop :=
  ∀ s t : State, s.Sound → step s = .next t → t.Sound

/-- The state after reset is sound, in a block of any configuration. -/
def Obligations.ResetIsSound : Prop :=
  State.reset.Sound ∧ ∀ (c : Config) (n : Nat) (ts : List Transaction), (State.cleared c n ts).Sound
end

