-- ==== Sys2Proof/Laws/State.lean ====
section
/-! SUPPORT. One lemma per field per named update of the state, each true by unfolding. -/

namespace Sys2Proof.Machine

variable (s : State)

/-! `raise K` (R280) -/

@[simp] theorem State.raise_err (k : ErrorKind) : (s.raise k).err = BitVec.ofNat 4 k.code := rfl
@[simp] theorem State.raise_esticky (k : ErrorKind) : (s.raise k).esticky = s.esticky ||| k.stickyBit := rfl
@[simp] theorem State.raise_res (k : ErrorKind) : (s.raise k).res = s.res := rfl
@[simp] theorem State.raise_idlen (k : ErrorKind) : (s.raise k).idlen = s.idlen := rfl
@[simp] theorem State.raise_modw (k : ErrorKind) : (s.raise k).modw = s.modw := rfl
@[simp] theorem State.raise_barh (k : ErrorKind) : (s.raise k).barh = s.barh := rfl
@[simp] theorem State.raise_margin (k : ErrorKind) : (s.raise k).margin = s.margin := rfl
@[simp] theorem State.raise_pixw (k : ErrorKind) : (s.raise k).pixw = s.pixw := rfl
@[simp] theorem State.raise_pixh (k : ErrorKind) : (s.raise k).pixh = s.pixh := rfl
@[simp] theorem State.raise_txtlen (k : ErrorKind) : (s.raise k).txtlen = s.txtlen := rfl
@[simp] theorem State.raise_idbuf (k : ErrorKind) : (s.raise k).idbuf = s.idbuf := rfl
@[simp] theorem State.raise_outid (k : ErrorKind) : (s.raise k).outid = s.outid := rfl
@[simp] theorem State.raise_pix (k : ErrorKind) : (s.raise k).pix = s.pix := rfl
@[simp] theorem State.raise_txt (k : ErrorKind) : (s.raise k).txt = s.txt := rfl
@[simp] theorem State.raise_config (k : ErrorKind) : (s.raise k).config = s.config := rfl
@[simp] theorem State.raise_draws (k : ErrorKind) : (s.raise k).draws = s.draws := rfl
@[simp] theorem State.raise_script (k : ErrorKind) : (s.raise k).script = s.script := rfl
@[simp] theorem State.raise_reply (k : ErrorKind) : (s.raise k).reply = s.reply := rfl

/-! `done` (R279) -/

@[simp] theorem State.done_err : (s.done).err = 0 := rfl
@[simp] theorem State.done_esticky : (s.done).esticky = s.esticky := rfl
@[simp] theorem State.done_res : (s.done).res = s.res := rfl
@[simp] theorem State.done_idlen : (s.done).idlen = s.idlen := rfl
@[simp] theorem State.done_modw : (s.done).modw = s.modw := rfl
@[simp] theorem State.done_barh : (s.done).barh = s.barh := rfl
@[simp] theorem State.done_margin : (s.done).margin = s.margin := rfl
@[simp] theorem State.done_pixw : (s.done).pixw = s.pixw := rfl
@[simp] theorem State.done_pixh : (s.done).pixh = s.pixh := rfl
@[simp] theorem State.done_txtlen : (s.done).txtlen = s.txtlen := rfl
@[simp] theorem State.done_idbuf : (s.done).idbuf = s.idbuf := rfl
@[simp] theorem State.done_outid : (s.done).outid = s.outid := rfl
@[simp] theorem State.done_pix : (s.done).pix = s.pix := rfl
@[simp] theorem State.done_txt : (s.done).txt = s.txt := rfl
@[simp] theorem State.done_config : (s.done).config = s.config := rfl
@[simp] theorem State.done_draws : (s.done).draws = s.draws := rfl
@[simp] theorem State.done_script : (s.done).script = s.script := rfl
@[simp] theorem State.done_reply : (s.done).reply = s.reply := rfl

/-! `RES <- v` -/

@[simp] theorem State.setRes_err (v : BitVec 8) : (s.setRes v).err = s.err := rfl
@[simp] theorem State.setRes_esticky (v : BitVec 8) : (s.setRes v).esticky = s.esticky := rfl
@[simp] theorem State.setRes_res (v : BitVec 8) : (s.setRes v).res = v := rfl
@[simp] theorem State.setRes_idlen (v : BitVec 8) : (s.setRes v).idlen = s.idlen := rfl
@[simp] theorem State.setRes_modw (v : BitVec 8) : (s.setRes v).modw = s.modw := rfl
@[simp] theorem State.setRes_barh (v : BitVec 8) : (s.setRes v).barh = s.barh := rfl
@[simp] theorem State.setRes_margin (v : BitVec 8) : (s.setRes v).margin = s.margin := rfl
@[simp] theorem State.setRes_pixw (v : BitVec 8) : (s.setRes v).pixw = s.pixw := rfl
@[simp] theorem State.setRes_pixh (v : BitVec 8) : (s.setRes v).pixh = s.pixh := rfl
@[simp] theorem State.setRes_txtlen (v : BitVec 8) : (s.setRes v).txtlen = s.txtlen := rfl
@[simp] theorem State.setRes_idbuf (v : BitVec 8) : (s.setRes v).idbuf = s.idbuf := rfl
@[simp] theorem State.setRes_outid (v : BitVec 8) : (s.setRes v).outid = s.outid := rfl
@[simp] theorem State.setRes_pix (v : BitVec 8) : (s.setRes v).pix = s.pix := rfl
@[simp] theorem State.setRes_txt (v : BitVec 8) : (s.setRes v).txt = s.txt := rfl
@[simp] theorem State.setRes_config (v : BitVec 8) : (s.setRes v).config = s.config := rfl
@[simp] theorem State.setRes_draws (v : BitVec 8) : (s.setRes v).draws = s.draws := rfl
@[simp] theorem State.setRes_script (v : BitVec 8) : (s.setRes v).script = s.script := rfl
@[simp] theorem State.setRes_reply (v : BitVec 8) : (s.setRes v).reply = s.reply := rfl

/-! The commit of `ENC` and `BMR` -/

@[simp] theorem State.setMatrix_err (m : Matrix) : (s.setMatrix m).err = s.err := rfl
@[simp] theorem State.setMatrix_esticky (m : Matrix) : (s.setMatrix m).esticky = s.esticky := rfl
@[simp] theorem State.setMatrix_res (m : Matrix) : (s.setMatrix m).res = s.res := rfl
@[simp] theorem State.setMatrix_idlen (m : Matrix) : (s.setMatrix m).idlen = s.idlen := rfl
@[simp] theorem State.setMatrix_modw (m : Matrix) : (s.setMatrix m).modw = s.modw := rfl
@[simp] theorem State.setMatrix_barh (m : Matrix) : (s.setMatrix m).barh = s.barh := rfl
@[simp] theorem State.setMatrix_margin (m : Matrix) : (s.setMatrix m).margin = s.margin := rfl
@[simp] theorem State.setMatrix_pixw (m : Matrix) : (s.setMatrix m).pixw = BitVec.ofNat 24 m.width := rfl
@[simp] theorem State.setMatrix_pixh (m : Matrix) : (s.setMatrix m).pixh = BitVec.ofNat 24 m.height := rfl
@[simp] theorem State.setMatrix_txtlen (m : Matrix) : (s.setMatrix m).txtlen = s.txtlen := rfl
@[simp] theorem State.setMatrix_idbuf (m : Matrix) : (s.setMatrix m).idbuf = s.idbuf := rfl
@[simp] theorem State.setMatrix_outid (m : Matrix) : (s.setMatrix m).outid = s.outid := rfl
@[simp] theorem State.setMatrix_pix (m : Matrix) : (s.setMatrix m).pix = s.pix.store m.cells := rfl
@[simp] theorem State.setMatrix_txt (m : Matrix) : (s.setMatrix m).txt = s.txt := rfl
@[simp] theorem State.setMatrix_config (m : Matrix) : (s.setMatrix m).config = s.config := rfl
@[simp] theorem State.setMatrix_draws (m : Matrix) : (s.setMatrix m).draws = s.draws := rfl
@[simp] theorem State.setMatrix_script (m : Matrix) : (s.setMatrix m).script = s.script := rfl
@[simp] theorem State.setMatrix_reply (m : Matrix) : (s.setMatrix m).reply = s.reply := rfl

/-! The commit of `DEC` -/

@[simp] theorem State.setOutid_err (c : Vector Byte 8) : (s.setOutid c).err = s.err := rfl
@[simp] theorem State.setOutid_esticky (c : Vector Byte 8) : (s.setOutid c).esticky = s.esticky := rfl
@[simp] theorem State.setOutid_res (c : Vector Byte 8) : (s.setOutid c).res = s.res := rfl
@[simp] theorem State.setOutid_idlen (c : Vector Byte 8) : (s.setOutid c).idlen = s.idlen := rfl
@[simp] theorem State.setOutid_modw (c : Vector Byte 8) : (s.setOutid c).modw = s.modw := rfl
@[simp] theorem State.setOutid_barh (c : Vector Byte 8) : (s.setOutid c).barh = s.barh := rfl
@[simp] theorem State.setOutid_margin (c : Vector Byte 8) : (s.setOutid c).margin = s.margin := rfl
@[simp] theorem State.setOutid_pixw (c : Vector Byte 8) : (s.setOutid c).pixw = s.pixw := rfl
@[simp] theorem State.setOutid_pixh (c : Vector Byte 8) : (s.setOutid c).pixh = s.pixh := rfl
@[simp] theorem State.setOutid_txtlen (c : Vector Byte 8) : (s.setOutid c).txtlen = s.txtlen := rfl
@[simp] theorem State.setOutid_idbuf (c : Vector Byte 8) : (s.setOutid c).idbuf = s.idbuf := rfl
@[simp] theorem State.setOutid_outid (c : Vector Byte 8) : (s.setOutid c).outid = c := rfl
@[simp] theorem State.setOutid_pix (c : Vector Byte 8) : (s.setOutid c).pix = s.pix := rfl
@[simp] theorem State.setOutid_txt (c : Vector Byte 8) : (s.setOutid c).txt = s.txt := rfl
@[simp] theorem State.setOutid_config (c : Vector Byte 8) : (s.setOutid c).config = s.config := rfl
@[simp] theorem State.setOutid_draws (c : Vector Byte 8) : (s.setOutid c).draws = s.draws := rfl
@[simp] theorem State.setOutid_script (c : Vector Byte 8) : (s.setOutid c).script = s.script := rfl
@[simp] theorem State.setOutid_reply (c : Vector Byte 8) : (s.setOutid c).reply = s.reply := rfl

/-! The commit of `BMW` -/

@[simp] theorem State.setText_err (x : List Byte) : (s.setText x).err = s.err := rfl
@[simp] theorem State.setText_esticky (x : List Byte) : (s.setText x).esticky = s.esticky := rfl
@[simp] theorem State.setText_res (x : List Byte) : (s.setText x).res = s.res := rfl
@[simp] theorem State.setText_idlen (x : List Byte) : (s.setText x).idlen = s.idlen := rfl
@[simp] theorem State.setText_modw (x : List Byte) : (s.setText x).modw = s.modw := rfl
@[simp] theorem State.setText_barh (x : List Byte) : (s.setText x).barh = s.barh := rfl
@[simp] theorem State.setText_margin (x : List Byte) : (s.setText x).margin = s.margin := rfl
@[simp] theorem State.setText_pixw (x : List Byte) : (s.setText x).pixw = s.pixw := rfl
@[simp] theorem State.setText_pixh (x : List Byte) : (s.setText x).pixh = s.pixh := rfl
@[simp] theorem State.setText_txtlen (x : List Byte) : (s.setText x).txtlen = BitVec.ofNat 24 x.length := rfl
@[simp] theorem State.setText_idbuf (x : List Byte) : (s.setText x).idbuf = s.idbuf := rfl
@[simp] theorem State.setText_outid (x : List Byte) : (s.setText x).outid = s.outid := rfl
@[simp] theorem State.setText_pix (x : List Byte) : (s.setText x).pix = s.pix := rfl
@[simp] theorem State.setText_txt (x : List Byte) : (s.setText x).txt = s.txt.store x := rfl
@[simp] theorem State.setText_config (x : List Byte) : (s.setText x).config = s.config := rfl
@[simp] theorem State.setText_draws (x : List Byte) : (s.setText x).draws = s.draws := rfl
@[simp] theorem State.setText_script (x : List Byte) : (s.setText x).script = s.script := rfl
@[simp] theorem State.setText_reply (x : List Byte) : (s.setText x).reply = s.reply := rfl

/-! The value a read returns -/

@[simp] theorem State.answer_err (v : Word) : (s.answer v).err = s.err := rfl
@[simp] theorem State.answer_esticky (v : Word) : (s.answer v).esticky = s.esticky := rfl
@[simp] theorem State.answer_res (v : Word) : (s.answer v).res = s.res := rfl
@[simp] theorem State.answer_idlen (v : Word) : (s.answer v).idlen = s.idlen := rfl
@[simp] theorem State.answer_modw (v : Word) : (s.answer v).modw = s.modw := rfl
@[simp] theorem State.answer_barh (v : Word) : (s.answer v).barh = s.barh := rfl
@[simp] theorem State.answer_margin (v : Word) : (s.answer v).margin = s.margin := rfl
@[simp] theorem State.answer_pixw (v : Word) : (s.answer v).pixw = s.pixw := rfl
@[simp] theorem State.answer_pixh (v : Word) : (s.answer v).pixh = s.pixh := rfl
@[simp] theorem State.answer_txtlen (v : Word) : (s.answer v).txtlen = s.txtlen := rfl
@[simp] theorem State.answer_idbuf (v : Word) : (s.answer v).idbuf = s.idbuf := rfl
@[simp] theorem State.answer_outid (v : Word) : (s.answer v).outid = s.outid := rfl
@[simp] theorem State.answer_pix (v : Word) : (s.answer v).pix = s.pix := rfl
@[simp] theorem State.answer_txt (v : Word) : (s.answer v).txt = s.txt := rfl
@[simp] theorem State.answer_config (v : Word) : (s.answer v).config = s.config := rfl
@[simp] theorem State.answer_draws (v : Word) : (s.answer v).draws = s.draws := rfl
@[simp] theorem State.answer_script (v : Word) : (s.answer v).script = s.script := rfl
@[simp] theorem State.answer_reply (v : Word) : (s.answer v).reply = some v := rfl

/-! `PixWrite` -/

@[simp] theorem State.writePix_err (a : Nat) (b : Bit) : (s.writePix a b).err = s.err := rfl
@[simp] theorem State.writePix_esticky (a : Nat) (b : Bit) : (s.writePix a b).esticky = s.esticky := rfl
@[simp] theorem State.writePix_res (a : Nat) (b : Bit) : (s.writePix a b).res = s.res := rfl
@[simp] theorem State.writePix_idlen (a : Nat) (b : Bit) : (s.writePix a b).idlen = s.idlen := rfl
@[simp] theorem State.writePix_modw (a : Nat) (b : Bit) : (s.writePix a b).modw = s.modw := rfl
@[simp] theorem State.writePix_barh (a : Nat) (b : Bit) : (s.writePix a b).barh = s.barh := rfl
@[simp] theorem State.writePix_margin (a : Nat) (b : Bit) : (s.writePix a b).margin = s.margin := rfl
@[simp] theorem State.writePix_pixw (a : Nat) (b : Bit) : (s.writePix a b).pixw = s.pixw := rfl
@[simp] theorem State.writePix_pixh (a : Nat) (b : Bit) : (s.writePix a b).pixh = s.pixh := rfl
@[simp] theorem State.writePix_txtlen (a : Nat) (b : Bit) : (s.writePix a b).txtlen = s.txtlen := rfl
@[simp] theorem State.writePix_idbuf (a : Nat) (b : Bit) : (s.writePix a b).idbuf = s.idbuf := rfl
@[simp] theorem State.writePix_outid (a : Nat) (b : Bit) : (s.writePix a b).outid = s.outid := rfl
@[simp] theorem State.writePix_pix (a : Nat) (b : Bit) : (s.writePix a b).pix = s.pix.write a b := rfl
@[simp] theorem State.writePix_txt (a : Nat) (b : Bit) : (s.writePix a b).txt = s.txt := rfl
@[simp] theorem State.writePix_config (a : Nat) (b : Bit) : (s.writePix a b).config = s.config := rfl
@[simp] theorem State.writePix_draws (a : Nat) (b : Bit) : (s.writePix a b).draws = s.draws := rfl
@[simp] theorem State.writePix_script (a : Nat) (b : Bit) : (s.writePix a b).script = s.script := rfl
@[simp] theorem State.writePix_reply (a : Nat) (b : Bit) : (s.writePix a b).reply = s.reply := rfl

/-! `TxtWrite` -/

@[simp] theorem State.writeTxt_err (a : Nat) (v : Byte) : (s.writeTxt a v).err = s.err := rfl
@[simp] theorem State.writeTxt_esticky (a : Nat) (v : Byte) : (s.writeTxt a v).esticky = s.esticky := rfl
@[simp] theorem State.writeTxt_res (a : Nat) (v : Byte) : (s.writeTxt a v).res = s.res := rfl
@[simp] theorem State.writeTxt_idlen (a : Nat) (v : Byte) : (s.writeTxt a v).idlen = s.idlen := rfl
@[simp] theorem State.writeTxt_modw (a : Nat) (v : Byte) : (s.writeTxt a v).modw = s.modw := rfl
@[simp] theorem State.writeTxt_barh (a : Nat) (v : Byte) : (s.writeTxt a v).barh = s.barh := rfl
@[simp] theorem State.writeTxt_margin (a : Nat) (v : Byte) : (s.writeTxt a v).margin = s.margin := rfl
@[simp] theorem State.writeTxt_pixw (a : Nat) (v : Byte) : (s.writeTxt a v).pixw = s.pixw := rfl
@[simp] theorem State.writeTxt_pixh (a : Nat) (v : Byte) : (s.writeTxt a v).pixh = s.pixh := rfl
@[simp] theorem State.writeTxt_txtlen (a : Nat) (v : Byte) : (s.writeTxt a v).txtlen = s.txtlen := rfl
@[simp] theorem State.writeTxt_idbuf (a : Nat) (v : Byte) : (s.writeTxt a v).idbuf = s.idbuf := rfl
@[simp] theorem State.writeTxt_outid (a : Nat) (v : Byte) : (s.writeTxt a v).outid = s.outid := rfl
@[simp] theorem State.writeTxt_pix (a : Nat) (v : Byte) : (s.writeTxt a v).pix = s.pix := rfl
@[simp] theorem State.writeTxt_txt (a : Nat) (v : Byte) : (s.writeTxt a v).txt = s.txt.write a v := rfl
@[simp] theorem State.writeTxt_config (a : Nat) (v : Byte) : (s.writeTxt a v).config = s.config := rfl
@[simp] theorem State.writeTxt_draws (a : Nat) (v : Byte) : (s.writeTxt a v).draws = s.draws := rfl
@[simp] theorem State.writeTxt_script (a : Nat) (v : Byte) : (s.writeTxt a v).script = s.script := rfl
@[simp] theorem State.writeTxt_reply (a : Nat) (v : Byte) : (s.writeTxt a v).reply = s.reply := rfl

/-! The next transaction off the host's script -/

@[simp] theorem State.take_err (ts : List Transaction) : (s.take ts).err = s.err := rfl
@[simp] theorem State.take_esticky (ts : List Transaction) : (s.take ts).esticky = s.esticky := rfl
@[simp] theorem State.take_res (ts : List Transaction) : (s.take ts).res = s.res := rfl
@[simp] theorem State.take_idlen (ts : List Transaction) : (s.take ts).idlen = s.idlen := rfl
@[simp] theorem State.take_modw (ts : List Transaction) : (s.take ts).modw = s.modw := rfl
@[simp] theorem State.take_barh (ts : List Transaction) : (s.take ts).barh = s.barh := rfl
@[simp] theorem State.take_margin (ts : List Transaction) : (s.take ts).margin = s.margin := rfl
@[simp] theorem State.take_pixw (ts : List Transaction) : (s.take ts).pixw = s.pixw := rfl
@[simp] theorem State.take_pixh (ts : List Transaction) : (s.take ts).pixh = s.pixh := rfl
@[simp] theorem State.take_txtlen (ts : List Transaction) : (s.take ts).txtlen = s.txtlen := rfl
@[simp] theorem State.take_idbuf (ts : List Transaction) : (s.take ts).idbuf = s.idbuf := rfl
@[simp] theorem State.take_outid (ts : List Transaction) : (s.take ts).outid = s.outid := rfl
@[simp] theorem State.take_pix (ts : List Transaction) : (s.take ts).pix = s.pix := rfl
@[simp] theorem State.take_txt (ts : List Transaction) : (s.take ts).txt = s.txt := rfl
@[simp] theorem State.take_config (ts : List Transaction) : (s.take ts).config = s.config := rfl
@[simp] theorem State.take_draws (ts : List Transaction) : (s.take ts).draws = s.draws := rfl
@[simp] theorem State.take_script (ts : List Transaction) : (s.take ts).script = ts := rfl
@[simp] theorem State.take_reply (ts : List Transaction) : (s.take ts).reply = none := rfl

/-! `Reset` (R310) -/

@[simp] theorem State.hostReset_err : s.hostReset.err = 0 := rfl
@[simp] theorem State.hostReset_esticky : s.hostReset.esticky = 0 := rfl
@[simp] theorem State.hostReset_res : s.hostReset.res = 0 := rfl
@[simp] theorem State.hostReset_idlen : s.hostReset.idlen = 0 := rfl
@[simp] theorem State.hostReset_modw : s.hostReset.modw = 0 := rfl
@[simp] theorem State.hostReset_barh : s.hostReset.barh = 0 := rfl
@[simp] theorem State.hostReset_margin : s.hostReset.margin = 0 := rfl
@[simp] theorem State.hostReset_pixw : s.hostReset.pixw = 0 := rfl
@[simp] theorem State.hostReset_pixh : s.hostReset.pixh = 0 := rfl
@[simp] theorem State.hostReset_txtlen : s.hostReset.txtlen = 0 := rfl
@[simp] theorem State.hostReset_idbuf : s.hostReset.idbuf = Vector.replicate 15 0 := rfl
@[simp] theorem State.hostReset_outid : s.hostReset.outid = Vector.replicate 8 0 := rfl
@[simp] theorem State.hostReset_pix : s.hostReset.pix = [] := rfl
@[simp] theorem State.hostReset_txt : s.hostReset.txt = [] := rfl
@[simp] theorem State.hostReset_config : s.hostReset.config = s.config := rfl
@[simp] theorem State.hostReset_draws : s.hostReset.draws = s.draws + 1 := rfl
@[simp] theorem State.hostReset_script : s.hostReset.script = s.script := rfl
@[simp] theorem State.hostReset_reply : s.hostReset.reply = none := rfl

/-! Reads of the memories after an update that leaves them alone -/

@[simp] theorem State.raise_pixAt (k : ErrorKind) (a : Nat) : (s.raise k).pixAt a = s.pixAt a := rfl
@[simp] theorem State.raise_txtAt (k : ErrorKind) (a : Nat) : (s.raise k).txtAt a = s.txtAt a := rfl
@[simp] theorem State.done_pixAt (a : Nat) : s.done.pixAt a = s.pixAt a := rfl
@[simp] theorem State.done_txtAt (a : Nat) : s.done.txtAt a = s.txtAt a := rfl
@[simp] theorem State.setRes_pixAt (v : BitVec 8) (a : Nat) : (s.setRes v).pixAt a = s.pixAt a := rfl
@[simp] theorem State.setRes_txtAt (v : BitVec 8) (a : Nat) : (s.setRes v).txtAt a = s.txtAt a := rfl
@[simp] theorem State.setOutid_pixAt (c : Vector Byte 8) (a : Nat) : (s.setOutid c).pixAt a = s.pixAt a := rfl
@[simp] theorem State.setOutid_txtAt (c : Vector Byte 8) (a : Nat) : (s.setOutid c).txtAt a = s.txtAt a := rfl
@[simp] theorem State.setMatrix_txtAt (m : Matrix) (a : Nat) : (s.setMatrix m).txtAt a = s.txtAt a := rfl
@[simp] theorem State.setText_pixAt (x : List Byte) (a : Nat) : (s.setText x).pixAt a = s.pixAt a := rfl

/-! The end of a command -/

@[simp] theorem State.conclude_error {α : Type} (k : ErrorKind) (f : State → α → State) :
    s.conclude (.error k) f = s.raise k := rfl

@[simp] theorem State.conclude_ok {α : Type} (v : α) (f : State → α → State) :
    s.conclude (.ok v) f = (f s v).done := rfl

variable {s}

/-- Every command ends in one of two ways: it raised a kind and did nothing else, or it wrote its results and is done. -/
theorem State.conclude_cases {α : Type} (r : Except ErrorKind α) (f : State → α → State) :
    (∃ k, r = .error k ∧ s.conclude r f = s.raise k) ∨ (∃ v, r = .ok v ∧ s.conclude r f = (f s v).done) := by
  cases r with
  | error k => exact .inl ⟨k, rfl, rfl⟩
  | ok v => exact .inr ⟨v, rfl, rfl⟩

/-- The code of an error kind is 1 to 9 (R270). -/
theorem ErrorKind.code_range (k : ErrorKind) : 1 ≤ k.code ∧ k.code ≤ 9 := by cases k <;> decide

/-- A raised error is never read as success. -/
theorem State.raise_err_ne_zero (k : ErrorKind) : (s.raise k).err ≠ 0 := by rw [State.raise_err]; cases k <;> decide

/-- After `raise`, `ERR` tells which kind it was. -/
theorem ErrorKind.ofNat_code_injective {k l : ErrorKind} (h : BitVec.ofNat 4 k.code = BitVec.ofNat 4 l.code) :
    k = l := by
  cases k <;> cases l <;> first | rfl | exact absurd h (by decide)

end Sys2Proof.Machine
end

