-- ==== Sys2Proof/Laws/Checksum.lean ====
section
/-! SUPPORT. What the character and check-digit functions answer (spec/00_scope.md R18, spec/41_checksum.md). -/

namespace Sys2Proof.Machine

/-- `digitOf` answers exactly on the ten digit characters. -/
theorem digitOf_eq_some {c : Byte} {d : Digit} : digitOf c = some d ↔ c.toNat = d.val + 0x30 := by
  unfold digitOf
  split
  · simp only [Option.some.injEq, Fin.ext_iff]; omega
  · have := d.isLt; simp only [reduceCtorEq, false_iff]; omega

theorem digitOf_eq_none {c : Byte} : digitOf c = none ↔ ¬ (0x30 ≤ c.toNat ∧ c.toNat ≤ 0x39) := by
  unfold digitOf; split <;> simp_all

theorem charOf_toNat (d : Digit) : (charOf d).toNat = d.val + 0x30 := by
  have := d.isLt
  simp only [charOf, BitVec.toNat_ofNat]; omega

/-- `val(chr(d))` is `d`. -/
@[simp] theorem digitOf_charOf (d : Digit) : digitOf (charOf d) = some d := digitOf_eq_some.2 (charOf_toNat d)

/-- A character with the value `d` is `chr(d)`. -/
theorem eq_charOf {c : Byte} {d : Digit} (h : digitOf c = some d) : c = charOf d :=
  BitVec.eq_of_toNat_eq (by rw [digitOf_eq_some.1 h, charOf_toNat])

/-- The leading digits of a string are the values of its leading characters. -/
theorem leadingDigits_eq_some {cs : List Byte} {n : Nat} {d : Vector Digit n} :
    leadingDigits cs n = some d ↔ ∀ i (h : i < n), cs[i]? = some (charOf d[i]) := by
  induction n with
  | zero => exact ⟨fun _ _ h => absurd h (by omega), fun _ => by
      rw [leadingDigits]; exact congrArg some (Vector.ext fun i h => absurd h (by omega))⟩
  | succ n ih =>
    unfold leadingDigits
    constructor
    · intro h i hi
      split at h
      · rename_i ds x hds hx
        obtain rfl := Option.some.inj h
        obtain ⟨c, hc, hcx⟩ := Option.bind_eq_some_iff.1 hx
        by_cases hin : i < n
        · rw [Vector.getElem_push_lt hin]; exact ih.1 hds i hin
        · obtain rfl : i = n := by omega
          simp [hc, eq_charOf hcx]
      · cases h
    · intro h
      have h1 : leadingDigits cs n = some d.pop := ih.2 fun i hi => by
        rw [h i (by omega)]; simp
      rw [h1, h n (by omega)]
      simp only [Option.bind_some, digitOf_charOf, Option.some.injEq]
      exact Vector.ext fun i hi => by
        by_cases hin : i < n
        · simp [hin]
        · obtain rfl : i = n := by omega
          simp

/-- The leading digits are missing exactly when a character is missing or is not a digit. -/
theorem leadingDigits_eq_none {cs : List Byte} {n : Nat} :
    leadingDigits cs n = none ↔ ∃ i, i < n ∧ cs[i]?.bind digitOf = none := by
  induction n with
  | zero => simp [leadingDigits]
  | succ n ih =>
    unfold leadingDigits
    constructor
    · intro h
      split at h
      · cases h
      · rename_i hno
        by_cases h1 : leadingDigits cs n = none
        · obtain ⟨i, hi, hb⟩ := ih.1 h1; exact ⟨i, by omega, hb⟩
        · by_cases h2 : cs[n]?.bind digitOf = none
          · exact ⟨n, by omega, h2⟩
          · obtain ⟨a, ha⟩ := Option.ne_none_iff_exists'.1 h1
            obtain ⟨b, hb⟩ := Option.ne_none_iff_exists'.1 h2
            exact absurd hb (hno a b ha)
    · rintro ⟨i, hi, hb⟩
      split
      · rename_i ds x hds hx
        by_cases hin : i < n
        · rw [ih.2 ⟨i, hin, hb⟩] at hds; cases hds
        · obtain rfl : i = n := by omega
          rw [hb] at hx; cases hx
      · rfl

@[simp] theorem payload_getElem (d : Vector Digit 8) (i : Nat) (h : i < 7) : (payload d)[i] = d[i] := by
  simp [payload]

/-- A string is the identifier of eight digits exactly when it is their characters and the eighth is the check digit of
the first seven. -/
theorem identifierDigits_eq_some {cs : List Byte} {d : Vector Digit 8} :
    identifierDigits cs = some d ↔
      cs.length = 8 ∧ (∀ i (h : i < 8), cs[i]? = some (charOf d[i])) ∧ checkDigit (payload d) = d[7] := by
  unfold identifierDigits
  constructor
  · intro h
    split at h
    · split at h
      · split at h
        · obtain rfl := Option.some.inj h
          exact ⟨‹_›, leadingDigits_eq_some.1 ‹_›, ‹_›⟩
        · cases h
      · cases h
    · cases h
  · rintro ⟨h1, h2, h3⟩
    simp [h1, leadingDigits_eq_some.2 h2, h3]

/-- `valid(s)` is exactly "`s` is an identifier" (R128). -/
theorem valid_eq_true {cs : List Byte} : valid cs = true ↔ ∃ d, identifierDigits cs = some d :=
  Option.isSome_iff_exists

/-- A string of eight digit characters is an identifier exactly when its check digit is right (R128). -/
theorem identifierDigits_of_chars {cs : List Byte} {d : Vector Digit 8} (hlen : cs.length = 8)
    (h : ∀ i (h : i < 8), cs[i]? = some (charOf d[i])) :
    identifierDigits cs = if checkDigit (payload d) = d[7] then some d else none := by
  simp [identifierDigits, hlen, leadingDigits_eq_some.2 h]

/-- The characters of the identifier in `IDBUF` (R30). -/
theorem State.identifier_getElem? (s : State) (i : Nat) :
    s.identifier[i]? = if h : i < 15 ∧ i < s.idlen.toNat then some s.idbuf[i] else none := by
  unfold State.identifier
  rw [List.getElem?_take]
  by_cases h : i < 15 <;> by_cases h' : i < s.idlen.toNat <;> simp [h, h']

theorem State.identifier_length (s : State) : s.identifier.length = s.idlen.toNat := by
  unfold State.identifier
  have := s.idlen.isLt
  simp; omega

/-- The weighted sum is at most 135 (R121). -/
theorem weightedSum_le (p : Vector Digit 7) : weightedSum p ≤ 135 := by
  unfold weightedSum
  have := p[0].isLt; have := p[1].isLt; have := p[2].isLt; have := p[3].isLt
  have := p[4].isLt; have := p[5].isLt; have := p[6].isLt
  omega

end Sys2Proof.Machine
end

