-- ==== Sys2Proof/Laws/Memory.lean ====
section
/-! SUPPORT. What the memory operations do: reads after writes, and that every operation keeps the canonical form. -/

namespace Sys2Proof.Machine

variable {w : Nat}

@[simp] theorem Mem.read_nil (a : Nat) : Mem.read ([] : Mem w) a = none := rfl

@[simp] theorem Mem.read_cons (b : Nat) (v : BitVec w) (m : Mem w) (a : Nat) :
    Mem.read ((b, v) :: m) a = if b = a then some v else Mem.read m a := rfl

@[simp] theorem Mem.wf_nil : Mem.wf ([] : Mem w) := List.Pairwise.nil

/-! ### One cell -/

/-- A read of the cell just written gives what was written. -/
theorem Mem.read_write_same (m : Mem w) (a : Nat) (v : BitVec w) : (m.write a v).read a = some v := by
  induction m with
  | nil => simp [Mem.write]
  | cons c m ih =>
    obtain ⟨b, u⟩ := c
    unfold Mem.write
    split
    · simp
    · split
      · simp
      · simp [ih]; omega

/-- A write leaves every other cell alone. -/
theorem Mem.read_write_other (m : Mem w) {a b : Nat} (v : BitVec w) (h : b ≠ a) :
    (m.write a v).read b = m.read b := by
  induction m with
  | nil => simp [Mem.write]; omega
  | cons c m ih =>
    obtain ⟨c, u⟩ := c
    unfold Mem.write
    split
    · simp; omega
    · split
      · subst_vars; simp [Ne.symm h]
      · simp [ih]

theorem Mem.mem_write {m : Mem w} {a : Nat} {v : BitVec w} {c : Nat × BitVec w} (h : c ∈ m.write a v) :
    c = (a, v) ∨ c ∈ m := by
  induction m with
  | nil => exact .inl (by simpa [Mem.write] using h)
  | cons d m ih =>
    obtain ⟨b, u⟩ := d
    unfold Mem.write at h
    split at h
    · simpa using h
    · split at h
      · rcases List.mem_cons.1 h with h | h
        · exact .inl h
        · exact .inr (List.mem_cons_of_mem _ h)
      · rcases List.mem_cons.1 h with h | h
        · exact .inr (h ▸ List.mem_cons_self)
        · exact (ih h).imp_right (List.mem_cons_of_mem _)

/-- A write keeps the canonical form. -/
theorem Mem.wf_write {m : Mem w} (h : m.wf) (a : Nat) (v : BitVec w) : (m.write a v).wf := by
  induction m with
  | nil => simp [Mem.write, Mem.wf]
  | cons d m ih =>
    obtain ⟨b, u⟩ := d
    obtain ⟨hb, hm⟩ := List.pairwise_cons.1 h
    unfold Mem.write
    split
    · refine List.pairwise_cons.2 ⟨fun c hc => ?_, h⟩
      rcases List.mem_cons.1 hc with rfl | hc
      · assumption
      · exact lt_trans ‹_› (hb c hc)
    · split
      · subst_vars; exact List.pairwise_cons.2 ⟨hb, hm⟩
      · refine List.pairwise_cons.2 ⟨fun c hc => ?_, ih hm⟩
        rcases Mem.mem_write hc with rfl | hc
        · show b < a; omega
        · exact hb c hc

/-! ### A block of cells from address 0 -/

theorem Mem.read_block (start : Nat) (vs : List (BitVec w)) (a : Nat) :
    Mem.read (Mem.block start vs) a = if start ≤ a then vs[a - start]? else none := by
  induction vs generalizing start with
  | nil => simp [Mem.block]
  | cons v vs ih =>
    simp only [Mem.block, Mem.read_cons, ih]
    rcases lt_trichotomy start a with h | h | h
    · obtain ⟨d, rfl⟩ : ∃ d, a = start + 1 + d := ⟨a - (start + 1), by omega⟩
      have e1 : start + 1 + d - start = d + 1 := by omega
      have e2 : start + 1 + d - (start + 1) = d := by omega
      simp [e1, e2, show start ≠ start + 1 + d by omega, show start ≤ start + 1 + d by omega]
    · subst h; simp
    · simp [show ¬ start + 1 ≤ a by omega, show ¬ start ≤ a by omega, show start ≠ a by omega]

theorem Mem.mem_block {start : Nat} {vs : List (BitVec w)} {c : Nat × BitVec w} (h : c ∈ Mem.block start vs) :
    start ≤ c.1 ∧ c.1 < start + vs.length := by
  induction vs generalizing start with
  | nil => simp [Mem.block] at h
  | cons v vs ih =>
    simp only [Mem.block, List.mem_cons] at h
    rcases h with rfl | h
    · simp
    · have := ih h; simp only [List.length_cons]; omega

theorem Mem.read_append (m n : Mem w) (a : Nat) : Mem.read (m ++ n) a = (Mem.read m a).or (Mem.read n a) := by
  induction m with
  | nil => simp
  | cons c m ih => obtain ⟨b, u⟩ := c; simp only [List.cons_append, Mem.read_cons, ih]; split <;> simp

theorem Mem.read_filter (m : Mem w) (p : Nat → Bool) (a : Nat) :
    Mem.read (m.filter (fun c => p c.1)) a = if p a then m.read a else none := by
  induction m with
  | nil => simp
  | cons c m ih =>
    obtain ⟨b, u⟩ := c
    by_cases hb : p b
    · simp only [List.filter_cons_of_pos (p := fun c : Nat × BitVec w => p c.1) (a := (b, u)) hb, Mem.read_cons, ih]
      by_cases h : b = a
      · subst h; simp [hb]
      · simp [h]
    · rw [List.filter_cons_of_neg (p := fun c : Nat × BitVec w => p c.1) (a := (b, u)) hb, ih]
      by_cases h : b = a
      · subst h; simp [hb]
      · simp [h]

/-- A block store gives the stored cells their values and leaves every cell beyond them as it was. -/
theorem Mem.read_store (m : Mem w) (vs : List (BitVec w)) (a : Nat) :
    (m.store vs).read a = if a < vs.length then vs[a]? else m.read a := by
  unfold Mem.store
  rw [Mem.read_append, Mem.read_filter m (fun b => decide (vs.length ≤ b)), Mem.read_block]
  by_cases h : a < vs.length
  · simp [h]
  · simp [h, show vs.length ≤ a by omega]

theorem Mem.mem_store {m : Mem w} {vs : List (BitVec w)} {c : Nat × BitVec w} (h : c ∈ m.store vs) :
    c.1 < vs.length ∨ c ∈ m := by
  rcases List.mem_append.1 h with h | h
  · exact .inl (by have := Mem.mem_block h; omega)
  · exact .inr (List.mem_filter.1 h).1

theorem Mem.wf_block (start : Nat) (vs : List (BitVec w)) : (Mem.block start vs).wf := by
  induction vs generalizing start with
  | nil => exact List.Pairwise.nil
  | cons v vs ih =>
    exact List.pairwise_cons.2 ⟨fun c hc => by have := Mem.mem_block hc; omega, ih (start + 1)⟩

/-- A block store keeps the canonical form. -/
theorem Mem.wf_store {m : Mem w} (h : m.wf) (vs : List (BitVec w)) : (m.store vs).wf := by
  refine List.pairwise_append.2 ⟨Mem.wf_block 0 vs, h.filter _, fun c hc d hd => ?_⟩
  have h1 := Mem.mem_block hc
  have h2 : vs.length ≤ d.1 := by simpa using (List.mem_filter.1 hd).2
  omega

/-! ### Reads of `PIX` and `TXT` after each kind of write -/

@[simp] theorem State.writePix_pixAt (s : State) (a : Nat) (b : Bit) (c : Nat) :
    (s.writePix a b).pixAt c = if c = a then b else s.pixAt c := by
  unfold State.pixAt
  by_cases h : c = a
  · subst h; simp [Mem.read_write_same]
  · simp [Mem.read_write_other _ _ h, h]

@[simp] theorem State.writeTxt_txtAt (s : State) (a : Nat) (v : Byte) (c : Nat) :
    (s.writeTxt a v).txtAt c = if c = a then v else s.txtAt c := by
  unfold State.txtAt
  by_cases h : c = a
  · subst h; simp [Mem.read_write_same]
  · simp [Mem.read_write_other _ _ h, h]

/-- The cells of a committed matrix, and every cell beyond it as before (R246, R328). -/
theorem State.setMatrix_pixAt (s : State) (m : Matrix) (a : Nat) :
    (s.setMatrix m).pixAt a = if h : a < m.cells.length then m.cells[a] else s.pixAt a := by
  unfold State.pixAt
  by_cases h : a < m.cells.length
  · simp [Mem.read_store, h]
  · simp [Mem.read_store, h]

/-- The bytes of a written text, and every byte beyond it as before (R233). -/
theorem State.setText_txtAt (s : State) (x : List Byte) (a : Nat) :
    (s.setText x).txtAt a = if h : a < x.length then x[a] else s.txtAt a := by
  unfold State.txtAt
  by_cases h : a < x.length
  · simp [Mem.read_store, h]
  · simp [Mem.read_store, h]

end Sys2Proof.Machine
end

