-- ==== Sys2Proof/Laws/Symbol.lean ====
section
/-! SUPPORT. The symbol tables and the reverse lookups (spec/42_symbol_table.md). -/

namespace Sys2Proof.Machine

/-- No pattern stands twice in the left table (R142 item 2). -/
theorem ltab_injective {d e : Digit} (h : ltab[d] = ltab[e]) : d = e := by revert d e; decide

/-- No pattern stands twice in the right table (R142 item 2). -/
theorem rtab_injective {d e : Digit} (h : rtab[d] = rtab[e]) : d = e := by revert d e; decide

theorem mem_allDigits (d : Digit) : d ∈ ([0, 1, 2, 3, 4, 5, 6, 7, 8, 9] : List Digit) := by revert d; decide

/-- A lookup answers none exactly when no digit has the pattern (R145). -/
theorem lookup_eq_none {tab : Vector Pattern 10} {t : Pattern} : lookup tab t = none ↔ ∀ d : Digit, tab[d] ≠ t := by
  unfold lookup
  rw [List.find?_eq_none]
  exact ⟨fun h d => by simpa using h d (mem_allDigits d), fun h d _ => by simpa using h d⟩

/-- A digit that a lookup answers has the pattern (R145). -/
theorem lookup_sound {tab : Vector Pattern 10} {t : Pattern} {d : Digit} (h : lookup tab t = some d) : tab[d] = t := by
  simpa using List.find?_some h

/-- `lrev` (R145): "the d in 0..9 with LTAB[d] = t". -/
theorem lrev_eq_some {t : Pattern} {d : Digit} : lrev t = some d ↔ ltab[d] = t := by
  refine ⟨lookup_sound, fun h => ?_⟩
  cases hl : lrev t with
  | none => exact absurd h (lookup_eq_none.1 hl d)
  | some e => exact congrArg some (ltab_injective ((lookup_sound hl).trans h.symm))

/-- `rrev` (R145). -/
theorem rrev_eq_some {t : Pattern} {d : Digit} : rrev t = some d ↔ rtab[d] = t := by
  refine ⟨lookup_sound, fun h => ?_⟩
  cases hl : rrev t with
  | none => exact absurd h (lookup_eq_none.1 hl d)
  | some e => exact congrArg some (rtab_injective ((lookup_sound hl).trans h.symm))

/-- Element `k` of a pattern is bit `6 − k` of the number (R140). -/
theorem element_eq (t : Pattern) {k : Nat} (h : k < 7) : element t k = BitVec.ofBool (t.getLsbD (6 - k)) := by
  simp [element, BitVec.getMsbD_eq_getLsbD, h]

/-- A pattern is its seven elements. -/
theorem pattern_ext {t u : Pattern} (h : ∀ k, k < 7 → element t k = element u k) : t = u := by
  refine BitVec.eq_of_getMsbD_eq fun k hk => ?_
  have := h k hk
  simp only [element] at this
  generalize t.getMsbD k = a at *
  generalize u.getMsbD k = b at *
  revert this; cases a <;> cases b <;> decide

end Sys2Proof.Machine
end

