-- ==== Sys2Proof/Laws/Encoder.lean ====
section
/-! SUPPORT. The matrix `ENC` draws: its cells by address (spec/20_memory.md R61), its modules and pixels
(spec/43_encoder.md R172, R177, R182). -/

namespace Sys2Proof.Machine

/-! ### Row-major order -/

variable {α : Type}

theorem raster_succ (W H : Nat) (f : Nat → Nat → α) :
    raster W (H + 1) f = raster W H f ++ (List.range W).map (fun x => f x H) := by
  simp [raster, List.range_succ]

@[simp] theorem raster_length (W H : Nat) (f : Nat → Nat → α) : (raster W H f).length = H * W := by
  induction H with
  | zero => simp [raster]
  | succ H ih => rw [raster_succ, List.length_append, ih]; simp [Nat.succ_mul]

/-- The pixel at column `x` and row `y` is at address `y·W + x` (R61). -/
theorem raster_getElem? (W H : Nat) (f : Nat → Nat → α) {x y : Nat} (hx : x < W) (hy : y < H) :
    (raster W H f)[y * W + x]? = some (f x y) := by
  induction H with
  | zero => omega
  | succ H ih =>
    rw [raster_succ]
    by_cases h : y < H
    · have : y * W + x < H * W := by
        have := Nat.mul_le_mul_right W (show y + 1 ≤ H from h)
        rw [Nat.succ_mul] at this; omega
      rw [List.getElem?_append_left (by simpa using this), ih h]
    · obtain rfl : y = H := by omega
      rw [List.getElem?_append_right (by simp), raster_length, Nat.add_sub_cancel_left]
      simp [hx]

/-- Every address below `W·H` is a pixel's. -/
theorem address_split {W H a : Nat} (h : a < H * W) : ∃ x y, x < W ∧ y < H ∧ a = y * W + x := by
  have hW : 0 < W := Nat.pos_of_ne_zero fun h0 => by simp [h0] at h
  refine ⟨a % W, a / W, Nat.mod_lt _ hW, (Nat.div_lt_iff_lt_mul hW).2 h, ?_⟩
  rw [Nat.mul_comm]; exact (Nat.div_add_mod a W).symm

/-- An address determines the pixel. -/
theorem address_injective {W x y x' y' : Nat} (hx : x < W) (hx' : x' < W) (h : y * W + x = y' * W + x') :
    x = x' ∧ y = y' := by
  have h1 := congrArg (· % W) h
  have h2 := congrArg (· / W) h
  have hW : 0 < W := by omega
  simp only [Nat.mul_comm _ W, Nat.mul_add_mod, Nat.mod_eq_of_lt hx, Nat.mod_eq_of_lt hx', Nat.mul_add_div hW,
    Nat.div_eq_of_lt hx, Nat.div_eq_of_lt hx'] at h1 h2
  omega

/-! ### Module positions -/

/-- The layout constants of R11's table. -/
theorem layout_bounds (l : Layout) :
    34 ≤ rightStart l ∧ rightStart l ≤ 36 ∧ endStart l = rightStart l + 28 ∧ endStart l ≤ totalModules l ∧
      totalModules l ≤ 67 := by cases l <;> decide

/-- The module bits of left group `g` are its digit's left pattern (R179). -/
theorem moduleBit_left (l : Layout) (D : Vector Digit 8) {g k : Nat} (hg : g < 4) (hk : k < 7) :
    moduleBit l D (3 + 7 * g + k) = element ltab[D[g]] k := by
  have e1 : (3 + 7 * g + k - 3) / 7 = g := by omega
  have e2 : (3 + 7 * g + k - 3) % 7 = k := by omega
  unfold moduleBit
  rw [if_neg (by omega), dif_pos (by omega)]
  simp only [e1, e2]

/-- The module bits of right group `g` are its digit's right pattern (R179). -/
theorem moduleBit_right (l : Layout) (D : Vector Digit 8) {g k : Nat} (hg : 4 ≤ g) (hg' : g < 8) (hk : k < 7) :
    moduleBit l D (rightStart l + 7 * (g - 4) + k) = element rtab[D[g]] k := by
  obtain ⟨h1, -, h3, -⟩ := layout_bounds l
  have e1 : 4 + (rightStart l + 7 * (g - 4) + k - rightStart l) / 7 = g := by omega
  have e2 : (rightStart l + 7 * (g - 4) + k - rightStart l) % 7 = k := by omega
  unfold moduleBit
  rw [if_neg (by omega), dif_neg (by omega), if_neg (by omega), dif_pos (by omega)]
  simp only [e1, e2]

/-! ### Pixels -/

/-- A bar pixel: column `m + p·mw + j` of a bar row shows module `p` (R177, R182). -/
theorem pixel_bar (l : Layout) (D : Vector Digit 8) {mw m H p j y : Nat} (hj : j < mw) (hp : p < totalModules l)
    (hy : m ≤ y) (hy' : y < H - m) :
    pixel l D mw m (symbolWidth l mw m) H (m + p * mw + j) y = moduleBit l D p := by
  have hle : p * mw + mw ≤ totalModules l * mw := by
    have := Nat.mul_le_mul_right mw (show p + 1 ≤ totalModules l from hp)
    rwa [Nat.succ_mul] at this
  have hdiv : (m + p * mw + j - m) / mw = p := by
    rw [show m + p * mw + j - m = mw * p + j by rw [Nat.mul_comm mw p]; omega, Nat.mul_add_div (by omega),
      Nat.div_eq_of_lt hj, Nat.add_zero]
  unfold pixel
  rw [if_neg (by unfold symbolWidth; omega), hdiv]

/-! ### The command -/

/-- When `ENC` succeeds, and what it then draws (R171). -/
theorem encResult_eq_ok {s : State} {M : Matrix} : encResult s = .ok M ↔
    ∃ D, identifierDigits s.identifier = some D ∧ s.modw ≠ 0 ∧ s.barh ≠ 0 ∧
      s.drawWidth * s.drawHeight ≤ s.config.pixCap.val ∧ M = s.drawing D := by
  unfold encResult
  constructor
  · intro h
    split at h
    · cases h
    · split at h
      · cases h
      · split at h
        · cases h
        · cases h
          exact ⟨_, ‹_›, by tauto, by tauto, by omega, rfl⟩
  · rintro ⟨D, h1, h2, h3, h4, rfl⟩
    simp only [h1]
    rw [if_neg (not_or.2 ⟨h2, h3⟩), if_neg (by omega)]

/-- The dimensions of a symbol fit their registers (R183). -/
theorem State.draw_fits (s : State) : s.drawWidth < 2 ^ 24 ∧ s.drawHeight < 2 ^ 24 := by
  have h1 := s.modw.isLt; have h2 := s.barh.isLt; have h3 := s.margin.isLt
  have h4 := (layout_bounds s.config.layout).2.2.2.2
  have h5 := Nat.mul_le_mul h4 (Nat.le_of_lt h1)
  unfold State.drawWidth State.drawHeight symbolWidth symbolHeight
  omega

@[simp] theorem State.drawing_cells_length (s : State) (D : Vector Digit 8) :
    (s.drawing D).cells.length = s.drawHeight * s.drawWidth := by simp [State.drawing]

/-- The cells of a drawn matrix, by address (R61, R177). -/
theorem State.drawing_cell (s : State) (D : Vector Digit 8) {x y : Nat} (hx : x < s.drawWidth)
    (hy : y < s.drawHeight) :
    (s.drawing D).cells[y * s.drawWidth + x]? =
      some (pixel s.config.layout D s.modw.toNat s.margin.toNat s.drawWidth s.drawHeight x y) :=
  raster_getElem? _ _ _ hx hy

end Sys2Proof.Machine
end

