-- ==== Sys2Proof/Laws/Bitmap.lean ====
section
/-! SUPPORT. The text `BMW` writes and the grammar `BMR` reads (spec/45_bitmap_codec.md). -/

namespace Sys2Proof.Machine

/-! ### Decimal numbers -/

theorem isDigit_charOf (d : Digit) : isDigit (charOf d) = true := by simp [isDigit]

theorem isDigit_iff {c : Byte} : isDigit c = true ↔ 0x30 ≤ c.toNat ∧ c.toNat ≤ 0x39 := by
  unfold isDigit digitOf; split <;> simp_all

theorem decimalValue_append_one (cs : List Byte) (c : Byte) :
    decimalValue (cs ++ [c]) = 10 * decimalValue cs + (c.toNat - 0x30) := by simp [decimalValue]

/-- `dec(n)`: the last digit after the digits of the rest (R236). -/
theorem decimalFrom_eq (fuel n : Nat) (acc : List Byte) (h : n < fuel) :
    decimalFrom fuel n acc = decimalFrom fuel n [] ++ acc := by
  induction fuel generalizing n acc with
  | zero => omega
  | succ fuel ih =>
    unfold decimalFrom
    split
    · simp
    · rw [ih _ _ (by omega), ih _ [_] (by omega)]; simp

theorem decimalFrom_fuel (fuel fuel' n : Nat) (h : n < fuel) (h' : n < fuel') :
    decimalFrom fuel n [] = decimalFrom fuel' n [] := by
  induction fuel generalizing n fuel' with
  | zero => omega
  | succ fuel ih =>
    obtain ⟨fuel', rfl⟩ : ∃ k, fuel' = k + 1 := ⟨fuel' - 1, by omega⟩
    unfold decimalFrom
    split
    · rfl
    · rw [decimalFrom_eq _ _ _ (by omega), decimalFrom_eq fuel' _ _ (by omega), ih fuel' _ (by omega) (by omega)]

theorem decimal_small {n : Nat} (h : n < 10) : decimal n = [charOf (Fin.ofNat 10 n)] := by
  simp [decimal, decimalFrom, h]

theorem decimal_step {n : Nat} (h : 10 ≤ n) : decimal n = decimal (n / 10) ++ [charOf (Fin.ofNat 10 n)] := by
  unfold decimal
  rw [decimalFrom, if_neg (by omega), decimalFrom_eq _ _ _ (by omega),
    decimalFrom_fuel n (n / 10 + 1) (n / 10) (by omega) (by omega)]

theorem decimal_ne_nil (n : Nat) : decimal n ≠ [] := by
  rcases Nat.lt_or_ge n 10 with h | h
  · simp [decimal_small h]
  · simp [decimal_step h]

theorem decimal_isDigit (n : Nat) : ∀ c ∈ decimal n, isDigit c = true := by
  induction n using Nat.strongRecOn with
  | ind n ih =>
    rcases Nat.lt_or_ge n 10 with h | h
    · rw [decimal_small h]; intro c hc; rw [List.mem_singleton.1 hc]; exact isDigit_charOf _
    · rw [decimal_step h]
      intro c hc
      rcases List.mem_append.1 hc with hc | hc
      · exact ih _ (by omega) c hc
      · rw [List.mem_singleton.1 hc]; exact isDigit_charOf _

/-- Reading `dec(n)` gives `n`. -/
@[simp] theorem decimalValue_decimal (n : Nat) : decimalValue (decimal n) = n := by
  induction n using Nat.strongRecOn with
  | ind n ih =>
    rcases Nat.lt_or_ge n 10 with h | h
    · rw [decimal_small h]
      simp only [decimalValue, List.foldl_cons, List.foldl_nil, charOf_toNat, Fin.val_ofNat]; omega
    · rw [decimal_step h, decimalValue_append_one, ih _ (by omega), charOf_toNat, Fin.val_ofNat]; omega

/-! ### Pixels -/

/-- The pixel a byte of the pixel area stands for, if any (R244). -/
def pixelOf (c : Byte) : Option Bit := if c = 0x30 then some 0 else if c = 0x31 then some 1 else none

/-- A byte that may not stand in the pixel area (R244). -/
def badPixelByte (c : Byte) : Bool := !isSpace c && (pixelOf c).isNone

theorem pixelOf_space {c : Byte} (h : isSpace c = true) : pixelOf c = none := by revert c; decide

/-- Phase 4 in one line (R244, R245): a bad byte or too many pixels is `MalformedHeader`, too few is `TruncatedData`. -/
theorem readPixels_eq (need : Nat) (cs : List Byte) : readPixels need cs =
    if cs.any badPixelByte then .error .malformedHeader
    else if (cs.filterMap pixelOf).length < need then .error .truncatedData
    else if need < (cs.filterMap pixelOf).length then .error .malformedHeader
    else .ok (cs.filterMap pixelOf) := by
  induction cs generalizing need with
  | nil => cases need <;> simp [readPixels]
  | cons c cs ih =>
    by_cases hs : isSpace c = true
    · have hb : badPixelByte c = false := by simp [badPixelByte, hs]
      have : readPixels need (c :: cs) = readPixels need cs := by cases need <;> simp [readPixels, hs]
      rw [this, ih, List.any_cons, hb, List.filterMap_cons_none (pixelOf_space hs)]; simp
    · by_cases hp : c = 0x30 ∨ c = 0x31
      · obtain ⟨b, hb, hbb⟩ : ∃ b, pixelOf c = some b ∧ b = (if c = 0x31 then 1 else 0 : Bit) := by
          rcases hp with rfl | rfl <;> exact ⟨_, rfl, rfl⟩
        have hbad : badPixelByte c = false := by simp [badPixelByte, hb]
        rw [List.any_cons, hbad, List.filterMap_cons_some hb]
        cases need with
        | zero => unfold readPixels; rw [if_neg hs, if_pos hp]; simp
        | succ need =>
          simp only [readPixels, hs, hp, if_true, ih, ← hbb, Bool.false_or, List.length_cons,
            Nat.add_lt_add_iff_right, Bool.false_eq_true, if_false]
          by_cases h1 : cs.any badPixelByte = true
          · simp only [h1, if_true]
          by_cases h2 : (cs.filterMap pixelOf).length < need
          · simp only [h1, h2, if_true, Bool.false_eq_true, if_false]
          by_cases h3 : need < (cs.filterMap pixelOf).length
          · simp only [h1, h2, h3, if_true, Bool.false_eq_true, if_false]
          simp only [h1, h2, h3, Bool.false_eq_true, if_false]
      · have hbad : badPixelByte c = true := by
          have : pixelOf c = none := by unfold pixelOf; rw [if_neg fun h => hp (.inl h), if_neg fun h => hp (.inr h)]
          simp [badPixelByte, hs, this]
        have : readPixels need (c :: cs) = .error .malformedHeader := by
          cases need <;> (unfold readPixels; rw [if_neg hs, if_neg hp])
        simp [this, hbad]

/-! ### The header -/

/-- Blank and comment lines (R242): whitespace, and comments from `#` up to the LF that ends the line. -/
inductive BlankRun : List Byte → Prop where
  | nil : BlankRun []
  | space {c cs} : isSpace c = true → BlankRun cs → BlankRun (c :: cs)
  | comment {body cs} : (∀ c ∈ body, c ≠ 0x0A) → BlankRun cs → BlankRun (0x23 :: body ++ 0x0A :: cs)

theorem skipBlank_comment {body : List Byte} (h : ∀ c ∈ body, c ≠ 0x0A) (cs : List Byte) :
    skipBlank true (body ++ 0x0A :: cs) = skipBlank false cs := by
  induction body with
  | nil => simp [skipBlank]
  | cons c body ih =>
    simp only [List.cons_append, skipBlank, if_neg (h c List.mem_cons_self)]
    exact ih fun d hd => h d (List.mem_cons_of_mem _ hd)

/-- Phase 2 skips a whole run of blank and comment lines (R242). -/
theorem skipBlank_run {run : List Byte} (h : BlankRun run) (cs : List Byte) :
    skipBlank false (run ++ cs) = skipBlank false cs := by
  induction h with
  | nil => rfl
  | space hc _ ih => simp [skipBlank, hc, ih]
  | comment hb _ ih =>
    rename_i body tail _
    have : (0x23 :: body ++ 0x0A :: tail) ++ cs = 0x23 :: (body ++ 0x0A :: (tail ++ cs)) := by simp
    rw [this]
    have h23 : isSpace 0x23 = false := by decide
    simp only [skipBlank, h23, Bool.false_eq_true, if_false, if_true]
    rw [skipBlank_comment hb, ih]

theorem skipBlank_digit {c : Byte} (h : isDigit c = true) (cs : List Byte) : skipBlank false (c :: cs) = c :: cs := by
  have h1 : isSpace c = false := by revert c; decide
  have h2 : c ≠ 0x23 := by revert c; decide
  unfold skipBlank
  rw [if_neg (by simp [h1]), if_neg h2]

theorem takeWhile_append_stop {p : Byte → Bool} {ds rest : List Byte} (h : ∀ c ∈ ds, p c = true)
    (hr : rest.head?.any p = false) : (ds ++ rest).takeWhile p = ds ∧ (ds ++ rest).dropWhile p = rest := by
  induction ds with
  | nil => cases rest <;> simp_all
  | cons d ds ih =>
    have hd := h d List.mem_cons_self
    have := ih fun c hc => h c (List.mem_cons_of_mem _ hc)
    simp [hd, this]

/-- A maximal run of digits is read whole (R243). -/
theorem readNumber_run {ds rest : List Byte} (hne : ds ≠ []) (h : ∀ c ∈ ds, isDigit c = true)
    (hr : rest.head?.any isDigit = false) : readNumber (ds ++ rest) = .ok (decimalValue ds, rest) := by
  obtain ⟨d, ds, rfl⟩ := List.exists_cons_of_ne_nil hne
  have hw := takeWhile_append_stop h hr
  unfold readNumber
  simp only [List.cons_append] at hw ⊢
  rw [if_pos (h d List.mem_cons_self), hw.1, hw.2]

theorem isSpace_not_isDigit {c : Byte} (h : isSpace c = true) : isDigit c = false := by revert c; decide

theorem isDigit_not_isSpace {c : Byte} (h : isDigit c = true) : isSpace c = false := by revert c; decide

/-- Phase 3 on a well-formed pair of numbers (R243). -/
theorem readDimensions_run {w sp h after : List Byte} (hw : w ≠ []) (hwd : ∀ c ∈ w, isDigit c = true) (hsp : sp ≠ [])
    (hsps : ∀ c ∈ sp, isSpace c = true) (hh : h ≠ []) (hhd : ∀ c ∈ h, isDigit c = true)
    (haft : after.head?.all isSpace = true) :
    readDimensions (w ++ sp ++ h ++ after) =
      if decimalValue w = 0 ∨ decimalValue h = 0 then .error .malformedHeader
      else .ok (decimalValue w, decimalValue h, after) := by
  obtain ⟨c, sp, rfl⟩ := List.exists_cons_of_ne_nil hsp
  have hc := hsps c List.mem_cons_self
  have hdrop : (sp ++ (h ++ after)).dropWhile isSpace = h ++ after :=
    (takeWhile_append_stop (fun d hd => hsps d (List.mem_cons_of_mem _ hd)) (by
      obtain ⟨d, h, rfl⟩ := List.exists_cons_of_ne_nil hh
      simp [isDigit_not_isSpace (hhd d List.mem_cons_self)])).2
  have haftd : after.head?.any isDigit = false := by
    cases after with
    | nil => rfl
    | cons a after => simpa using isSpace_not_isDigit (by simpa using haft)
  have hafts : after.head?.any (fun c => !isSpace c) = false := by
    cases after with
    | nil => rfl
    | cons a after => simpa using haft
  unfold readDimensions
  rw [show w ++ c :: sp ++ h ++ after = w ++ c :: (sp ++ (h ++ after)) by simp,
    readNumber_run hw hwd (by simp [isSpace_not_isDigit hc])]
  simp only [hc, hdrop, readNumber_run hh hhd haftd, hafts, Bool.true_eq_false, Bool.false_eq_true, if_false]

/-! ### The whole text -/

/-- What `BMR` makes of a text with a well-formed header (R240): phase 4 decides. -/
theorem parseText_header {cap : Nat} {c : Byte} {run w sp h after : List Byte} (hc : isSpace c = true)
    (hrun : BlankRun run) (hw : w ≠ []) (hwd : ∀ c ∈ w, isDigit c = true) (hsp : sp ≠ [])
    (hsps : ∀ c ∈ sp, isSpace c = true) (hh : h ≠ []) (hhd : ∀ c ∈ h, isDigit c = true)
    (haft : after.head?.all isSpace = true) (hnz : decimalValue w ≠ 0 ∧ decimalValue h ≠ 0) :
    parseText cap (0x50 :: 0x31 :: c :: (run ++ (w ++ sp ++ h ++ after))) =
      if decimalValue w * decimalValue h > cap then .error .capacity
      else match readPixels (decimalValue w * decimalValue h) after with
        | .error e => .error e
        | .ok bs => .ok { width := decimalValue w, height := decimalValue h, cells := bs } := by
  have hskip : skipBlank false (c :: (run ++ (w ++ sp ++ h ++ after))) = w ++ sp ++ h ++ after := by
    have := skipBlank_run (.space hc hrun) (w ++ sp ++ h ++ after)
    rw [List.cons_append] at this
    rw [this]
    obtain ⟨d, w, rfl⟩ := List.exists_cons_of_ne_nil hw
    exact skipBlank_digit (hwd d List.mem_cons_self) _
  unfold parseText afterMagic
  simp only [ne_eq, not_true, or_self, if_false, hc, if_true, hskip,
    readDimensions_run hw hwd hsp hsps hh hhd haft, hnz.1, hnz.2] <;> rfl

/-- The bytes of the pixel area `BMW` writes (R234). -/
def pixelArea (W H : Nat) (cell : Nat → Bit) : List Byte :=
  (raster W H (fun x y => pixelText W (cell (y * W + x)) x)).flatten

theorem pixelText_filterMap (W : Nat) (b : Bit) (x : Nat) : (pixelText W b x).filterMap pixelOf = [b] := by
  unfold pixelText; split <;> (revert b; decide)

theorem pixelText_good (W : Nat) (b : Bit) (x : Nat) : (pixelText W b x).any badPixelByte = false := by
  unfold pixelText; split <;> (revert b; decide)

theorem raster_map {α β : Type} (W H : Nat) (f : Nat → Nat → α) (g : α → β) :
    (raster W H f).map g = raster W H (fun x y => g (f x y)) := by
  simp [raster, List.map_flatMap, Function.comp_def]

/-- Read back, the pixel area is the matrix it was written from (R247). -/
theorem pixelArea_filterMap (W H : Nat) (cell : Nat → Bit) :
    (pixelArea W H cell).filterMap pixelOf = raster W H (fun x y => cell (y * W + x)) := by
  unfold pixelArea
  rw [List.filterMap_flatten, raster_map]
  simp only [pixelText_filterMap]
  have : ∀ l : List Bit, (l.map fun b => [b]).flatten = l := fun l => by induction l <;> simp_all
  rw [← raster_map (g := fun b => [b]) (f := fun x y => cell (y * W + x)), this]

theorem pixelArea_good (W H : Nat) (cell : Nat → Bit) : (pixelArea W H cell).any badPixelByte = false := by
  rw [List.any_eq_false]
  intro c hc
  obtain ⟨l, hl, hcl⟩ := List.mem_flatten.1 hc
  obtain ⟨y, -, hy⟩ := List.mem_flatMap.1 hl
  obtain ⟨x, -, rfl⟩ := List.mem_map.1 hy
  exact List.any_eq_false.1 (pixelText_good W _ x) c hcl

theorem length_flatten_pairs {ls : List (List Byte)} (h : ∀ l ∈ ls, l.length = 2) :
    ls.flatten.length = 2 * ls.length := by
  induction ls with
  | nil => rfl
  | cons l ls ih =>
    rw [List.flatten_cons, List.length_append, h l List.mem_cons_self,
      ih fun m hm => h m (List.mem_cons_of_mem _ hm), List.length_cons]; omega

theorem pixelArea_length (W H : Nat) (cell : Nat → Bit) : (pixelArea W H cell).length = 2 * (H * W) := by
  unfold pixelArea
  rw [length_flatten_pairs, raster_length]
  intro l hl
  obtain ⟨y, -, hy⟩ := List.mem_flatMap.1 hl
  obtain ⟨x, -, rfl⟩ := List.mem_map.1 hy
  rfl

theorem getElem?_flatten_pairs {ls : List (List Byte)} (h : ∀ l ∈ ls, l.length = 2) (a b : Nat) (hb : b < 2) :
    ls.flatten[2 * a + b]? = ls[a]?.bind (·[b]?) := by
  induction ls generalizing a with
  | nil => simp
  | cons l ls ih =>
    have hl := h l List.mem_cons_self
    have ht := ih fun m hm => h m (List.mem_cons_of_mem _ hm)
    cases a with
    | zero => rw [List.flatten_cons, List.getElem?_append_left (by omega)]; simp
    | succ a =>
      rw [List.flatten_cons, List.getElem?_append_right (by omega),
        show 2 * (a + 1) + b - l.length = 2 * a + b by omega, ht]; simp

/-- The two bytes of the pixel at column `x` and row `y` (R234). -/
theorem pixelArea_getElem? (W H : Nat) (cell : Nat → Bit) {x y b : Nat} (hx : x < W) (hy : y < H) (hb : b < 2) :
    (pixelArea W H cell)[2 * (y * W + x) + b]? = (pixelText W (cell (y * W + x)) x)[b]? := by
  unfold pixelArea
  rw [getElem?_flatten_pairs _ _ _ hb, raster_getElem? _ _ _ hx hy, Option.bind_some]
  intro l hl
  obtain ⟨y, -, hy⟩ := List.mem_flatMap.1 hl
  obtain ⟨x, -, rfl⟩ := List.mem_map.1 hy
  rfl

/-- The text `BMW` writes has the length of R235. -/
theorem matrixText_length (W H : Nat) (cell : Nat → Bit) : (matrixText W H cell).length = textLength W H := by
  have := pixelArea_length W H cell
  unfold pixelArea at this
  unfold matrixText textLength headerText
  rw [List.length_append, this]
  simp only [List.length_append, List.length_cons, List.length_nil]
  rw [Nat.mul_comm H W, ← Nat.mul_assoc]

/-- `read(write(m)) == m` on texts (R247). -/
theorem parseText_matrixText {cap W H : Nat} (cell : Nat → Bit) (hW : W ≠ 0) (hH : H ≠ 0) (hcap : W * H ≤ cap) :
    parseText cap (matrixText W H cell) =
      .ok { width := W, height := H, cells := raster W H (fun x y => cell (y * W + x)) } := by
  have htext : matrixText W H cell = 0x50 :: 0x31 :: 0x0A :: ([] ++ (decimal W ++ [0x20] ++ decimal H ++
      (0x0A :: pixelArea W H cell))) := by simp [matrixText, headerText, pixelArea]
  rw [htext, parseText_header (by decide) .nil (decimal_ne_nil W) (decimal_isDigit W) (by simp)
    (by decide) (decimal_ne_nil H) (decimal_isDigit H) rfl (by simp [hW, hH])]
  have hlf : badPixelByte 0x0A = false := by decide
  have hlf' : pixelOf 0x0A = none := by decide
  rw [readPixels_eq, List.any_cons, pixelArea_good, hlf, List.filterMap_cons_none hlf', pixelArea_filterMap]
  simp [Nat.not_lt.2 hcap, Nat.mul_comm H W]

end Sys2Proof.Machine
end

