-- ==== Sys2Proof/Laws/Decode.lean ====
section
/-! SUPPORT. The fields of a command word, and what decoding depends on (spec/30_encoding.md R90, R98). -/

namespace Sys2Proof

/-- A command word is its two fields (R90). -/
theorem word_eq_fields (w : CmdWord) : w = opField w ++ argField w := by
  apply BitVec.eq_of_getLsbD_eq
  intro i hi
  rw [BitVec.getLsbD_append]
  by_cases h : i < 8
  · simp [argField, h]
  · simp [opField, h, show i - 8 < 8 by omega, show 8 + (i - 8) = i by omega]

@[simp] theorem opField_append (op arg : BitVec 8) : opField (op ++ arg) = op := by
  apply BitVec.eq_of_getLsbD_eq
  intro i hi
  rw [opField, BitVec.getLsbD_extractLsb', BitVec.getLsbD_append]
  simp [hi]

@[simp] theorem argField_append (op arg : BitVec 8) : argField (op ++ arg) = arg := by
  apply BitVec.eq_of_getLsbD_eq
  intro i hi
  rw [argField, BitVec.getLsbD_extractLsb', BitVec.getLsbD_append]
  simp [hi]

theorem opField_toNat (w : CmdWord) : (opField w).toNat = w.toNat / 256 := by
  have := w.isLt
  simp [opField, Nat.shiftRight_eq_div_pow]; omega

theorem argField_toNat (w : CmdWord) : (argField w).toNat = w.toNat % 256 := by simp [argField]

/-- What format `N` accepts (R91). -/
theorem formatN_eq_ok {arg : BitVec 8} {i j : Instr} : formatN arg i = .ok j ↔ arg = 0 ∧ j = i := by
  unfold formatN
  by_cases h : arg = 0
  · rw [if_pos h]; exact ⟨fun e => ⟨h, (Except.ok.inj e).symm⟩, fun e => congrArg _ e.2.symm⟩
  · rw [if_neg h]; exact ⟨(fun e => nomatch e), fun e => absurd e.1 h⟩

/-- What format `D` accepts (R92): a digit in the low four bits and nothing above it. -/
theorem formatD_eq_ok {arg : BitVec 8} {mk : BitVec 4 → Instr} {j : Instr} :
    formatD arg mk = .ok j ↔ ∃ d : BitVec 4, d.toNat ≤ 9 ∧ arg = d.setWidth 8 ∧ j = mk d := by
  have h1 : ∀ a : BitVec 8, a.extractLsb' 4 4 = 0 → a = (a.extractLsb' 0 4).setWidth 8 := by decide
  have h2 : ∀ d : BitVec 4, (d.setWidth 8).extractLsb' 4 4 = 0 ∧ (d.setWidth 8).extractLsb' 0 4 = d := by decide
  unfold formatD
  constructor
  · intro h
    split at h
    · cases h
    · split at h
      · cases h
      · cases h
        rename_i hz hd
        exact ⟨_, by omega, h1 _ (not_not.1 hz), rfl⟩
  · rintro ⟨d, hd, rfl, rfl⟩
    rw [(h2 d).1, (h2 d).2, if_neg (by simp), if_neg (by omega)]

/-- What format `P` accepts (R93): a pattern in the low seven bits and nothing above it. -/
theorem formatP_eq_ok {arg : BitVec 8} {mk : Pattern → Instr} {j : Instr} :
    formatP arg mk = .ok j ↔ ∃ t : Pattern, arg = t.setWidth 8 ∧ j = mk t := by
  have h1 : ∀ a : BitVec 8, a.extractLsb' 7 1 = 0 → a = (a.extractLsb' 0 7).setWidth 8 := by decide
  have h2 : ∀ t : Pattern, (t.setWidth 8).extractLsb' 7 1 = 0 ∧ (t.setWidth 8).extractLsb' 0 7 = t := by decide
  unfold formatP
  constructor
  · intro h
    split at h
    · cases h
    · cases h
      rename_i hz
      exact ⟨_, h1 _ (not_not.1 hz), rfl⟩
  · rintro ⟨t, rfl, rfl⟩
    rw [(h2 t).1, (h2 t).2, if_neg (by simp)]

/-- What the codes of the unit `BMC` accept (R97). -/
theorem formatBmc_eq_ok {c : Config} {arg : BitVec 8} {i j : Instr} :
    formatBmc c arg i = .ok j ↔ c.hasBmc = true ∧ arg = 0 ∧ j = i := by
  unfold formatBmc; split <;> simp_all [formatN_eq_ok]

/-- Decoding depends on the configuration through `HAS_BMC` only (R98). -/
theorem decode_config (c : Config) (w : CmdWord) :
    decode c w = decode { Config.standard with hasBmc := c.hasBmc } w := rfl

end Sys2Proof
end

