-- ==== Sys2Proof/Laws/Decoder.lean ====
section
/-! SUPPORT. The scanline walk of `DEC` (spec/44_decoder.md R205 to R208, R210). -/

namespace Sys2Proof.Machine

/-- One bit joined below a vector of bits, element by element from the top. -/
theorem getMsbD_snoc {k : Nat} (t : BitVec k) (b : Bit) (j : Nat) :
    (t ++ b).getMsbD j = if j < k then t.getMsbD j else decide (j = k) && b.getLsbD 0 := by
  rw [BitVec.getMsbD_append]
  by_cases h : j < k
  · simp [h]
  · by_cases h' : j = k
    · subst h'; simp [BitVec.getMsbD_eq_getLsbD]
    · simp [h, h', BitVec.getMsbD_eq_getLsbD, show ¬ (j - k) < 1 by omega]

theorem ofBool_getLsbD_zero (b : Bit) : BitVec.ofBool (b.getLsbD 0) = b := by revert b; decide

/-- The samples a gather answers, and that it answers exactly when every run it reads is in bounds (R205, R206). -/
theorem gather_eq_ok {s : State} {base k : Nat} {t : BitVec k} : gather s base k = .ok t ↔
    ∀ j, j < k → runInBounds s (base + j) ∧ BitVec.ofBool (t.getMsbD j) = sample s (base + j) := by
  induction k with
  | zero =>
    refine ⟨fun _ j hj => absurd hj (by omega), fun _ => ?_⟩
    rw [gather]; exact congrArg Except.ok (Subsingleton.elim _ _)
  | succ k ih =>
    unfold gather
    constructor
    · intro h j hj
      split at h
      · cases h
      · rename_i u hu
        split at h
        · cases h
          rw [getMsbD_snoc]
          by_cases hjk : j < k
          · simpa only [hjk, if_true] using ih.1 hu j hjk
          · obtain rfl : j = k := by omega
            refine ⟨‹_›, ?_⟩
            simp only [lt_irrefl, if_false, decide_true, Bool.true_and, ofBool_getLsbD_zero]
        · cases h
    · intro h
      obtain ⟨u, b, rfl⟩ : ∃ (u : BitVec k) (b : Bit), t = u ++ b :=
        ⟨t.extractLsb' 1 k, t.extractLsb' 0 1, by
          apply BitVec.eq_of_getLsbD_eq; intro i hi
          rw [BitVec.getLsbD_append]
          by_cases h0 : i < 1
          · obtain rfl : i = 0 := by omega
            simp
          · simp [h0, show i - 1 < k by omega, show 1 + (i - 1) = i by omega]⟩
      have hu : gather s base k = .ok u := ih.2 fun j hj => by
        have := h j (by omega)
        rwa [getMsbD_snoc, if_pos hj] at this
      have hk := h k (by omega)
      rw [getMsbD_snoc] at hk
      simp only [lt_irrefl, if_false, decide_true, Bool.true_and, ofBool_getLsbD_zero] at hk
      simp only [hu]
      rw [if_pos hk.1, ← hk.2]

theorem gather_error_kind {s : State} {base k : Nat} {e : ErrorKind} (h : gather s base k = .error e) :
    e = .malformedBarcode := by
  induction k with
  | zero => cases h
  | succ k ih =>
    unfold gather at h
    split at h
    · cases h; exact ih ‹_›
    · split at h <;> cases h
      rfl

/-- A gather fails only for a run out of bounds (R206). -/
theorem gather_eq_error {s : State} {base k : Nat} {e : ErrorKind} : gather s base k = .error e ↔
    e = .malformedBarcode ∧ ∃ j, j < k ∧ ¬ runInBounds s (base + j) := by
  induction k with
  | zero => simp [gather]
  | succ k ih =>
    unfold gather
    constructor
    · intro h
      split at h
      · rename_i e' he
        cases h
        obtain ⟨rfl, j, hj, hb⟩ := ih.1 he
        exact ⟨rfl, j, by omega, hb⟩
      · split at h
        · cases h
        · cases h; exact ⟨rfl, k, by omega, ‹_›⟩
    · rintro ⟨rfl, j, hj, hb⟩
      split
      · rename_i e' he; exact congrArg Except.error (gather_error_kind he)
      · rename_i u hu
        by_cases hjk : j < k
        · exact absurd (gather_eq_ok.1 hu j hjk).1 hb
        · obtain rfl : j = k := by omega
          rw [if_neg hb]

/-- The pattern of digit `d` in the table of group `g` (R207). -/
def groupPattern (g : Nat) (d : Digit) : Pattern := if g < 4 then ltab[d] else rtab[d]

theorem groupLookup_eq_some {g : Nat} {t : Pattern} {d : Digit} : groupLookup g t = some d ↔ groupPattern g d = t := by
  unfold groupLookup groupPattern
  split
  · exact lrev_eq_some
  · exact rrev_eq_some

/-- A group gives digit `d` exactly when its seven runs are in bounds and its samples are the pattern of `d` (R207). -/
theorem groupDigit_eq_ok {s : State} {g : Nat} {d : Digit} : groupDigit s g = .ok d ↔
    ∀ k, k < 7 → runInBounds s (groupBase s.config.layout g + k) ∧
      sample s (groupBase s.config.layout g + k) = element (groupPattern g d) k := by
  unfold groupDigit
  constructor
  · intro h k hk
    split at h
    · cases h
    · rename_i t ht
      split at h
      · cases h
      · cases h
        have := gather_eq_ok.1 ht k hk
        rw [groupLookup_eq_some.1 ‹_›]
        exact ⟨this.1, this.2.symm⟩
  · intro h
    have ht : gather s (groupBase s.config.layout g) 7 = .ok (groupPattern g d) :=
      gather_eq_ok.2 fun j hj => ⟨(h j hj).1, (h j hj).2.symm⟩
    simp only [ht, groupLookup_eq_some.2 rfl]

/-- The walk gives the digits of its groups, all of them found (R207, R208). -/
theorem walk_eq_ok {s : State} {n : Nat} {d : Vector Digit n} :
    walk s n = .ok d ↔ ∀ g (h : g < n), groupDigit s g = .ok d[g] := by
  induction n with
  | zero =>
    refine ⟨fun _ g h => absurd h (by omega), fun _ => ?_⟩
    rw [walk]; exact congrArg Except.ok (Vector.ext fun i h => absurd h (by omega))
  | succ n ih =>
    unfold walk
    constructor
    · intro h g hg
      split at h
      · cases h
      · rename_i ds hds
        split at h
        · cases h
        · cases h
          by_cases hgn : g < n
          · rw [Vector.getElem_push_lt hgn]; exact ih.1 hds g hgn
          · obtain rfl : g = n := by omega
            simpa using ‹_›
    · intro h
      have h1 : walk s n = .ok d.pop := ih.2 fun g hg => by rw [h g (by omega)]; simp
      simp only [h1, h n (by omega)]
      refine congrArg Except.ok (Vector.ext fun i hi => ?_)
      by_cases hin : i < n
      · simp [hin]
      · obtain rfl : i = n := by omega
        simp

theorem walk_error_group {s : State} {n : Nat} {e : ErrorKind} (h : walk s n = .error e) :
    ∃ g, g < n ∧ groupDigit s g = .error e ∧ ∀ g', g' < g → ∃ d, groupDigit s g' = .ok d := by
  induction n with
  | zero => cases h
  | succ n ih =>
    unfold walk at h
    split at h
    · cases h
      obtain ⟨g, hg, h1, h2⟩ := ih ‹_›
      exact ⟨g, by omega, h1, h2⟩
    · rename_i ds hds
      split at h
      · cases h
        exact ⟨n, by omega, ‹_›, fun g' hg' => ⟨_, walk_eq_ok.1 hds g' hg'⟩⟩
      · cases h

/-- The walk ends with the error of the first group that has one (R208). -/
theorem walk_eq_error {s : State} {n : Nat} {e : ErrorKind} :
    walk s n = .error e ↔
      ∃ g, g < n ∧ groupDigit s g = .error e ∧ ∀ g', g' < g → ∃ d, groupDigit s g' = .ok d := by
  refine ⟨walk_error_group, ?_⟩
  induction n with
  | zero => rintro ⟨g, hg, -⟩; omega
  | succ n ih =>
    unfold walk
    rintro ⟨g, hg, h1, h2⟩
    split
    · rename_i e' he
      obtain ⟨g', hg', h1', h2'⟩ := walk_error_group he
      rcases lt_trichotomy g g' with h | h | h
      · obtain ⟨d, hd⟩ := h2' g h; rw [h1] at hd; cases hd
      · subst h; exact congrArg Except.error (Except.error.inj (h1'.symm.trans h1))
      · obtain ⟨d, hd⟩ := h2 g' h; rw [h1'] at hd; cases hd
    · rename_i ds hds
      by_cases hgn : g < n
      · rw [walk_eq_ok.1 hds g hgn] at h1; cases h1
      · obtain rfl : g = n := by omega
        simp [h1]

/-- When `DEC` succeeds, and with which digits (R201, R204, R210). -/
theorem decResult_eq_ok {s : State} {d : Vector Digit 8} : decResult s = .ok d ↔
    s.modw ≠ 0 ∧ s.pixw ≠ 0 ∧ s.pixh ≠ 0 ∧ s.pixw.toNat * s.pixh.toNat ≤ s.config.pixCap.val ∧
      2 * s.margin.toNat < s.pixh.toNat ∧ (∀ g (h : g < 8), groupDigit s g = .ok d[g]) ∧
      checkDigit (payload d) = d[7] := by
  unfold decResult
  rw [← walk_eq_ok]
  constructor
  · intro h
    split at h
    · cases h
    · split at h
      · cases h
      · split at h
        · cases h
        · split at h
          · cases h
          · split at h
            · cases h
            · split at h
              · cases h
              · cases h
                refine ⟨‹_›, by tauto, by tauto, by omega, by omega, ‹_›, by rename_i hc; simpa using hc⟩
  · rintro ⟨h1, h2, h3, h4, h5, h6, h7⟩
    rw [if_neg h1, if_neg (not_or.2 ⟨h2, h3⟩), if_neg (by omega), if_neg (by omega)]
    simp only [h6, h7, ne_eq, not_true, if_false]

@[simp] theorem digitChars_getElem (d : Vector Digit 8) (i : Nat) (h : i < 8) : (digitChars d)[i] = charOf d[i] := by
  simp [digitChars]

/-- The eight characters `DEC` commits are an identifier exactly when the check digit is right (R210). -/
theorem valid_digitChars (d : Vector Digit 8) :
    valid (digitChars d).toList = true ↔ checkDigit (payload d) = d[7] := by
  rw [valid, identifierDigits_of_chars (d := d) (by simp) (fun i h => by simp [h])]
  split <;> simp [*]

end Sys2Proof.Machine
end

