-- ==== Sys2Proof/Laws/PerInstr.lean ====
section
/-! SUPPORT. The statement made per command: its word matches its own row of R94 and no bit of the operand falls outside
the row's operand field. -/

namespace Sys2Proof.Laws.EncodeMatchesRow

/-- The columns `match` and `mask` of R94: the word of a command shows `match` where `mask` is 1, and the operand where
`mask` is 0. -/
def Statement (i : Instr) : Prop :=
  encode i &&& i.rowMask = i.rowMatch ∧ encode i &&& ~~~i.rowMask = i.operandBits

theorem chk : Statement .chk := by unfold Statement; decide
theorem val : Statement .val := by unfold Statement; decide
theorem lpat (d : BitVec 4) : Statement (.lpat d) := by unfold Statement; decide +revert
theorem rpat (d : BitVec 4) : Statement (.rpat d) := by unfold Statement; decide +revert
theorem lrev (pat : Pattern) : Statement (.lrev pat) := by unfold Statement; decide +revert
theorem rrev (pat : Pattern) : Statement (.rrev pat) := by unfold Statement; decide +revert
theorem urev (pat : Pattern) : Statement (.urev pat) := by unfold Statement; decide +revert
theorem enc : Statement .enc := by unfold Statement; decide
theorem dec : Statement .dec := by unfold Statement; decide
theorem bmw : Statement .bmw := by unfold Statement; decide
theorem bmr : Statement .bmr := by unfold Statement; decide

end Sys2Proof.Laws.EncodeMatchesRow
end

