-- ==== Sys2Proof/Laws/Step.lean ====
section
/-! SUPPORT. Everything a command and a transaction can do, said once. -/

namespace Sys2Proof.Machine

/-- When `BMW` succeeds, and which text it then writes (R233). -/
theorem bmwResult_eq_ok {s : State} {x : List Byte} : bmwResult s = .ok x ↔
    s.config.hasBmc = true ∧ s.pixw ≠ 0 ∧ s.pixh ≠ 0 ∧ s.pixw.toNat * s.pixh.toNat ≤ s.config.pixCap.val ∧
      textLength s.pixw.toNat s.pixh.toNat ≤ s.config.txtCap.val ∧
      x = matrixText s.pixw.toNat s.pixh.toNat s.pixAt := by
  unfold bmwResult
  dsimp only
  constructor
  · intro h
    split at h
    · cases h
    · split at h
      · cases h
      · split at h
        · cases h
        · split at h
          · cases h
          · cases h
            exact ⟨by simpa using ‹¬ s.config.hasBmc = false›, by tauto, by tauto, by omega, by omega, rfl⟩
  · rintro ⟨h1, h2, h3, h4, h5, rfl⟩
    rw [if_neg (by simp [h1]), if_neg (not_or.2 ⟨h2, h3⟩), if_neg (by omega), if_neg (by omega)]

theorem readDimensions_nonzero {cs after : List Byte} {W H : Nat} (h : readDimensions cs = .ok (W, H, after)) :
    W ≠ 0 ∧ H ≠ 0 := by
  unfold readDimensions at h
  split at h
  · cases h
  · cases h
  · split at h
    · cases h
    · split at h
      · cases h
      · split at h
        · cases h
        · split at h
          · cases h
          · cases h; tauto

/-- A matrix that a text stands for has both dimensions, as many cells as they say, and fits `PIX` (R243, R244). -/
theorem parseText_size {cap : Nat} {x : List Byte} {M : Matrix} (h : parseText cap x = .ok M) :
    M.width ≠ 0 ∧ M.height ≠ 0 ∧ M.cells.length = M.width * M.height ∧ M.width * M.height ≤ cap := by
  unfold parseText at h
  split at h
  · cases h
  · split at h
    · cases h
    · rename_i W H after hd
      split at h
      · cases h
      · split at h
        · cases h
        · rename_i hcap bs hbs
          cases h
          obtain ⟨h1, h2⟩ := readDimensions_nonzero hd
          rw [readPixels_eq] at hbs
          split at hbs
          · cases hbs
          · split at hbs
            · cases hbs
            · split at hbs
              · cases hbs
              · cases hbs
                exact ⟨h1, h2, by dsimp only; omega, by dsimp only; omega⟩

/-- When `BMR` succeeds, and the size of the matrix it then commits (R240). -/
theorem bmrResult_eq_ok {s : State} {M : Matrix} : bmrResult s = .ok M ↔
    s.config.hasBmc = true ∧ s.txtlen.toNat ≤ s.config.txtCap.val ∧
      parseText s.config.pixCap.val s.text = .ok M := by
  unfold bmrResult
  constructor
  · intro h
    split at h
    · cases h
    · split at h
      · cases h
      · exact ⟨by simpa using ‹¬ s.config.hasBmc = false›, by omega, h⟩
  · rintro ⟨h1, h2, h3⟩
    rw [if_neg (by simp [h1]), if_neg (by omega), h3]

/-- A product of two numbers that are not 0 bounds both. -/
theorem factors_le {a b n : Nat} (ha : a ≠ 0) (hb : b ≠ 0) (h : a * b ≤ n) : a ≤ n ∧ b ≤ n :=
  ⟨(Nat.le_mul_of_pos_right a (Nat.pos_of_ne_zero hb)).trans h,
    (Nat.le_mul_of_pos_left b (Nat.pos_of_ne_zero ha)).trans h⟩

/-- Everything a command can do: it fails with a kind, or it writes its results and is done (R279, R280). -/
theorem exec_cases {i : Instr} {s t : State} (h : exec i s = .next t) :
    (∃ k, t = s.raise k) ∨
    (i ∉ [.enc, .dec, .bmw, .bmr] ∧ ∃ v, t = (s.setRes v).done ∧ (v.toNat < 128 ∨ (128 ≤ v.toNat ∧ v.toNat ≤ 137))) ∨
    (i = .enc ∧ ∃ M, encResult s = .ok M ∧ t = (s.setMatrix M).done) ∨
    (i = .bmr ∧ ∃ M, bmrResult s = .ok M ∧ t = (s.setMatrix M).done) ∨
    (i = .dec ∧ ∃ d, decResult s = .ok d ∧ t = (s.setOutid (digitChars d)).done) ∨
    (i = .bmw ∧ ∃ x, bmwResult s = .ok x ∧ t = (s.setText x).done) := by
  have hdig : ∀ d : Digit, (resDigit d).toNat < 128 := by decide
  have hver : ∀ b : Bool, (resVerdict b).toNat < 128 := by decide
  have hpat : ∀ p : Pattern, (resPattern p).toNat < 128 := by decide
  have hfound : ∀ q : Option Digit, (resFound q).toNat < 128 ∨ (128 ≤ (resFound q).toNat ∧ (resFound q).toNat ≤ 137) := by
    intro q; cases q with
    | none => exact .inl (by decide)
    | some d => revert d; decide
  cases i <;> simp only [exec, execChk, execVal, execLpat, execRpat, execLrev, execRrev, execUrev, execEnc, execDec,
    execBmw, execBmr, Host.Outcome.next.injEq] at h <;> subst h
  case chk =>
    rcases State.conclude_cases (s := s) (chkResult s) (fun s d => s.setRes (resDigit d)) with ⟨k, -, h⟩ | ⟨v, -, h⟩
    · exact .inl ⟨k, h⟩
    · exact .inr (.inl ⟨by decide, _, h, .inl (hdig v)⟩)
  case val => exact .inr (.inl ⟨by decide, _, rfl, .inl (hver _)⟩)
  case lpat d =>
    rcases State.conclude_cases (s := s) (digitOperand d) (fun s d => s.setRes (resPattern ltab[d]))
      with ⟨k, -, h⟩ | ⟨v, -, h⟩
    · exact .inl ⟨k, h⟩
    · exact .inr (.inl ⟨by simp, _, h, .inl (hpat _)⟩)
  case rpat d =>
    rcases State.conclude_cases (s := s) (digitOperand d) (fun s d => s.setRes (resPattern rtab[d]))
      with ⟨k, -, h⟩ | ⟨v, -, h⟩
    · exact .inl ⟨k, h⟩
    · exact .inr (.inl ⟨by simp, _, h, .inl (hpat _)⟩)
  case lrev => exact .inr (.inl ⟨by simp, _, rfl, hfound _⟩)
  case rrev => exact .inr (.inl ⟨by simp, _, rfl, hfound _⟩)
  case urev => exact .inr (.inl ⟨by simp, _, rfl, hfound _⟩)
  case enc =>
    rcases State.conclude_cases (s := s) (encResult s) State.setMatrix with ⟨k, -, h⟩ | ⟨v, hv, h⟩
    · exact .inl ⟨k, h⟩
    · exact .inr (.inr (.inl ⟨rfl, v, hv, h⟩))
  case bmr =>
    rcases State.conclude_cases (s := s) (bmrResult s) State.setMatrix with ⟨k, -, h⟩ | ⟨v, hv, h⟩
    · exact .inl ⟨k, h⟩
    · exact .inr (.inr (.inr (.inl ⟨rfl, v, hv, h⟩)))
  case dec =>
    rcases State.conclude_cases (s := s) (decResult s) (fun s d => s.setOutid (digitChars d))
      with ⟨k, -, h⟩ | ⟨v, hv, h⟩
    · exact .inl ⟨k, h⟩
    · exact .inr (.inr (.inr (.inr (.inl ⟨rfl, v, hv, h⟩))))
  case bmw =>
    rcases State.conclude_cases (s := s) (bmwResult s) State.setText with ⟨k, -, h⟩ | ⟨v, hv, h⟩
    · exact .inl ⟨k, h⟩
    · exact .inr (.inr (.inr (.inr (.inr ⟨rfl, v, hv, h⟩))))

/-- `CMD` is register 0 and no other (R20). -/
theorem regOf_eq_cmd {c : Config} {n : Nat} (h : regOf c n = some .cmd) : n = 0 := by
  unfold regOf at h
  split at h
  · cases h
  · split at h
    · cases h
    · split at h <;> first | rfl | cases h | (split at h <;> cases h)

/-- Everything a transaction can do to the state it is taken in (R64). -/
theorem transact_cases {tr : Transaction} {s t : State} (h : transact tr s = .next t) :
    (∃ v, t = s.answer v) ∨
    (∃ n v, tr = .regWrite n v ∧ n ≠ 0 ∧ t = s) ∨
    (∃ n v r, tr = .regWrite n v ∧ n ≠ 0 ∧ regOf s.config n = some r ∧ t = s.writeReg v r) ∨
    (∃ v, tr = .regWrite 0 v ∧ (t = s.raise .illegal ∨ ∃ i, decode s.config (v.setWidth 16) = .ok i ∧ exec i s = .next t)) ∨
    (∃ a v, tr = .pixWrite a v ∧ a < s.config.pixCap.val ∧ t = s.writePix a (v.setWidth 1)) ∨
    (∃ a v, tr = .txtWrite a v ∧ s.config.hasBmc = true ∧ a < s.config.txtCap.val ∧ t = s.writeTxt a (v.setWidth 8)) ∨
    (tr = .reset ∧ t = s.hostReset) := by
  cases tr with
  | regRead n =>
    simp only [transact, Host.Outcome.next.injEq] at h
    refine .inl ?_
    unfold regRead at h
    split at h
    · exact ⟨_, h.symm⟩
    · exact ⟨_, h.symm⟩
  | regWrite n v =>
    simp only [transact, regWrite] at h
    by_cases hn : n = 0
    · subst hn
      refine .inr (.inr (.inr (.inl ⟨v, rfl, ?_⟩)))
      have h' : issue (v.setWidth 16) s = .next t := h
      unfold issue at h'
      split at h'
      · exact .inr ⟨_, ‹_›, h'⟩
      · cases h'; exact .inl rfl
    · split at h
      · exact absurd (regOf_eq_cmd ‹_›) hn
      · cases h; exact .inr (.inr (.inl ⟨n, v, _, rfl, hn, ‹_›, rfl⟩))
      · cases h; exact .inr (.inl ⟨n, v, rfl, hn, rfl⟩)
  | pixRead a =>
    simp only [transact, pixAccess] at h
    split at h
    · cases h; exact .inl ⟨_, rfl⟩
    · cases h
  | pixWrite a v =>
    simp only [transact, pixAccess] at h
    split at h
    · cases h; exact .inr (.inr (.inr (.inr (.inl ⟨a, v, rfl, ‹_›, rfl⟩))))
    · cases h
  | txtRead a =>
    simp only [transact, txtAccess] at h
    split at h
    · cases h
    · split at h
      · cases h; exact .inl ⟨_, rfl⟩
      · cases h
  | txtWrite a v =>
    simp only [transact, txtAccess] at h
    split at h
    · cases h
    · split at h
      · cases h
        exact .inr (.inr (.inr (.inr (.inr (.inl ⟨a, v, rfl, by simpa using ‹¬ s.config.hasBmc = false›, ‹_›, rfl⟩)))))
      · cases h
  | reset => cases h; exact .inr (.inr (.inr (.inr (.inr (.inr ⟨rfl, rfl⟩)))))

/-- A step is idle, or it is the next transaction of the script (R15, R64). -/
theorem step_cases {s t : State} (h : step s = .next t) :
    (s.script = [] ∧ t = s) ∨ ∃ tr rest, s.script = tr :: rest ∧ transact tr (s.take rest) = .next t := by
  unfold step nextTransaction at h
  split at h
  · cases h; exact .inl ⟨‹_›, rfl⟩
  · exact .inr ⟨_, _, ‹_›, h⟩

/-- The step that takes a given transaction. -/
theorem step_of_script {s : State} {tr : Transaction} {rest : List Transaction} (h : s.script = tr :: rest) :
    step s = transact tr (s.take rest) := by
  unfold step nextTransaction
  rw [h]

end Sys2Proof.Machine
end

