-- ==== Sys2Proof/Laws/Sound.lean ====
section
/-! SUPPORT. Every named update of the state keeps it sound. -/

namespace Sys2Proof.Machine

variable {s : State}

theorem State.Sound.raise (h : s.Sound) (k : ErrorKind) : (s.raise k).Sound :=
  { h with
    errRange := by cases k <;> simp [State.raise_err, ErrorKind.code]
    stickyBitZero := by
      have h0 := h.stickyBitZero
      have hk : k.stickyBit.getLsbD 0 = false := by cases k <;> decide
      simp only [State.raise_esticky, BitVec.getLsbD_or, h0, hk, Bool.or_false] }

theorem State.Sound.done (h : s.Sound) : s.done.Sound := { h with errRange := by simp }

theorem State.Sound.setRes (h : s.Sound) {v : BitVec 8}
    (hv : v.toNat < 128 ∨ (128 ≤ v.toNat ∧ v.toNat ≤ 137)) : (s.setRes v).Sound := { h with resRange := hv }

theorem State.Sound.setMatrix (h : s.Sound) {M : Matrix} (hM : M.cells.length ≤ s.config.pixCap.val) :
    (s.setMatrix M).Sound :=
  { h with
    pixCanonical := Mem.wf_store h.pixCanonical _
    pixInside := fun c hc => (Mem.mem_store hc).elim (fun h1 => Nat.lt_of_lt_of_le h1 hM) (h.pixInside c) }

theorem State.Sound.setText (h : s.Sound) {x : List Byte} (hb : s.config.hasBmc = true)
    (hx : x.length ≤ s.config.txtCap.val) : (s.setText x).Sound :=
  { h with
    txtCanonical := Mem.wf_store h.txtCanonical _
    txtInside := fun c hc => (Mem.mem_store hc).elim (fun h1 => Nat.lt_of_lt_of_le h1 hx) (h.txtInside c)
    textAbsent := fun hf => absurd (hb.symm.trans hf) (by decide) }

theorem State.Sound.setOutid (h : s.Sound) {c : Vector Byte 8} (hc : valid c.toList = true) : (s.setOutid c).Sound :=
  { h with outidIdentifier := .inr hc }

theorem State.Sound.answer (h : s.Sound) (v : Word) : (s.answer v).Sound := { h with }

theorem State.Sound.take (h : s.Sound) (ts : List Transaction) : (s.take ts).Sound := { h with }

theorem State.Sound.writePix (h : s.Sound) {a : Nat} (ha : a < s.config.pixCap.val) (b : Bit) :
    (s.writePix a b).Sound :=
  { h with
    pixCanonical := Mem.wf_write h.pixCanonical _ _
    pixInside := fun c hc => (Mem.mem_write hc).elim (fun h1 => h1 ▸ ha) (h.pixInside c) }

theorem State.Sound.writeTxt (h : s.Sound) {a : Nat} (hb : s.config.hasBmc = true) (ha : a < s.config.txtCap.val)
    (v : Byte) : (s.writeTxt a v).Sound :=
  { h with
    txtCanonical := Mem.wf_write h.txtCanonical _ _
    txtInside := fun c hc => (Mem.mem_write hc).elim (fun h1 => h1 ▸ ha) (h.txtInside c)
    textAbsent := fun hf => absurd (hb.symm.trans hf) (by decide) }

/-- A register number that names `TXTLEN` shows that the block has the unit `BMC` (R41). -/
theorem regOf_eq_txtlen {c : Config} {n : Nat} (h : regOf c n = some .txtlen) : c.hasBmc = true := by
  unfold regOf at h
  split at h
  · cases h
  · split at h
    · cases h
    · split at h <;> first | cases h | (split at h <;> first | assumption | cases h)

theorem State.Sound.writeReg (h : s.Sound) {n : Nat} {r : Reg} (hr : regOf s.config n = some r) (v : Word) :
    (s.writeReg v r).Sound := by
  cases r with
  | cmd | err | res | cfg | outid | idlen | modw | barh | margin | pixw | pixh | idbuf => exact { h with }
  | esticky =>
    refine { h with stickyBitZero := ?_ }
    have h0 := h.stickyBitZero
    simp only [State.writeReg, stickyAfterWrite, BitVec.getLsbD_and, h0, Bool.false_and]
  | txtlen => exact { h with textAbsent := fun hf => absurd ((regOf_eq_txtlen hr).symm.trans hf) (by decide) }

end Sys2Proof.Machine
end

