-- ==== Sys2Proof/Tests/Slice0.lean ====
section
/-! SUPPORT. Tests of single steps, with results from spec/95_test_vectors.md or written out from the spec's tables; and
for every claim with hypotheses a concrete state and operands that meet them all. -/

open Sys2Proof Sys2Proof.Machine Sys2Proof.Claims

namespace Sys2Proof.Tests

/-! ### Small states -/

/-- The state an outcome goes to. -/
def after (o : Host.Outcome State Fault Refusal) : State :=
  match o with
  | .next s => s
  | .fault _ => State.reset
  | .refused _ => State.reset

/-- Why an outcome is refused. -/
def refusalOf (o : Host.Outcome State Fault Refusal) : Option Refusal :=
  match o with
  | .next _ => none
  | .fault _ => none
  | .refused r => some r

/-- The characters of a text. -/
def chars (x : String) : List Byte := x.toList.map (fun c => BitVec.ofNat 8 c.toNat)

/-- The `k` low bits of a number, the highest first. -/
def bitsOf (n k : Nat) : List Bit := (List.range k).map (fun i => BitVec.ofNat 1 (n / 2 ^ (k - 1 - i)))

def noBmc : Config := { Config.standard with hasBmc := false }
def l67 : Config := { Config.standard with layout := .l67 }

/-- The reset state with an identifier loaded (`WRID`). -/
def withId (x : String) : State :=
  { State.reset with
    idlen := BitVec.ofNat 4 x.length
    idbuf := Vector.ofFn (fun i => ((chars x)[i.val]?).getD 0) }

/-- The reset state with an identifier and a geometry (`WRID`, `SETGEOM`). -/
def ready (x : String) (mw bh m : BitVec 16) : State := { withId x with modw := mw, barh := bh, margin := m }

/-- The reset state with a matrix and the geometry that `DEC` uses (`LOADPIX`). -/
def matrix (w h : BitVec 24) (cells : List Bit) (mw m : BitVec 16) : State :=
  { State.reset with pixw := w, pixh := h, pix := Mem.block 0 cells, modw := mw, margin := m }

/-- The reset state with a text (`LOADTXT`). -/
def text (x : String) : State :=
  { State.reset with txtlen := BitVec.ofNat 24 x.length, txt := Mem.block 0 (chars x) }

/-- A state with the host about to issue one transaction. -/
def about (t : Transaction) (s : State) : State := { s with script := [t] }

/-- The row of V20. -/
def row : List Bit := bitsOf 0x2A31A65DAE51364E 62

/-- The row of V37: that of V20 with its six guard pixels flipped. -/
def guardless : List Bit := [0, 1, 0] ++ (row.drop 3).take 28 ++ [1, 0, 1] ++ row.drop 34

def digits4017 : Vector Digit 8 := #v[4, 0, 1, 7, 0, 7, 2, 5]

/-! ### Well-formedness: an ill-formed command for each check (R92, R97) -/

theorem test_lpat_ten_is_ill_formed : (Instr.lpat 10).wellFormed Config.standard = false := by decide
theorem test_rpat_ten_is_ill_formed : (Instr.rpat 10).wellFormed Config.standard = false := by decide
theorem test_bmw_absent_is_ill_formed : Instr.bmw.wellFormed noBmc = false := by decide
theorem test_bmr_absent_is_ill_formed : Instr.bmr.wellFormed noBmc = false := by decide

/-! ### Decoding: words written out from R90 to R94, `op` in the high byte -/

theorem test_decode_chk : decode noBmc 0b0000000100000000 = .ok .chk := by decide
theorem test_decode_val : decode noBmc 0b0000001000000000 = .ok .val := by decide
theorem test_decode_lpat : decode noBmc 0b0001000000001001 = .ok (.lpat 9) := by decide
theorem test_decode_rpat : decode noBmc 0b0001000100000100 = .ok (.rpat 4) := by decide
theorem test_decode_lrev : decode noBmc 0b0001001000100011 = .ok (.lrev 0b0100011) := by decide
theorem test_decode_rrev : decode noBmc 0b0001001101011100 = .ok (.rrev 0b1011100) := by decide
theorem test_decode_urev : decode noBmc 0b0001010001110010 = .ok (.urev 0b1110010) := by decide
theorem test_decode_enc : decode noBmc 0b0010000000000000 = .ok .enc := by decide
theorem test_decode_dec : decode noBmc 0b0010000100000000 = .ok .dec := by decide
theorem test_decode_bmw : decode Config.standard 0b0011000000000000 = .ok .bmw := by decide
theorem test_decode_bmr : decode Config.standard 0b0011000100000000 = .ok .bmr := by decide

/-- V17, V60: refused, each by its name. -/
theorem test_decode_refuses :
    decode Config.standard 0x0000 = .error .unknownOp ∧ decode Config.standard 0xFFFF = .error .unknownOp ∧
    decode Config.standard 0x1500 = .error .unknownOp ∧ decode Config.standard 0x3200 = .error .unknownOp ∧
    decode Config.standard 0x0101 = .error .argNotZero ∧ decode Config.standard 0x2001 = .error .argNotZero ∧
    decode Config.standard 0x1010 = .error .reservedBits ∧ decode Config.standard 0x1280 = .error .reservedBits ∧
    decode Config.standard 0x100A = .error .digitAboveNine ∧ decode Config.standard 0x110F = .error .digitAboveNine ∧
    decode noBmc 0x3000 = .error .unitAbsent ∧ decode noBmc 0x3100 = .error .unitAbsent := by decide

/-- Words of R94's rows for the host's numbering. -/
theorem test_decode_table_word :
    decodeTableWord 16 0x1004 = some (.lpat 4) ∧ decodeTableWord 16 0x3100 = some .bmr ∧
    decodeTableWord 16 0x0300 = none := by decide

/-! ### One step of each command -/

/-- V2: the eighth character is not read. -/
theorem test_chk : after (exec .chk (withId "40170729")) = { withId "40170729" with res := 5 } := by decide

/-- V3: the byte before '0'. -/
theorem test_chk_non_digit :
    let s := withId "/017072"
    after (exec .chk s) = { s with err := 1, esticky := 0b10 } := by decide

/-- V4: valid, and a wrong check digit. -/
theorem test_val : (after (exec .val (withId "96385074"))).res = 1 ∧ (after (exec .val (withId "99999994"))).res = 0 := by
  decide

/-- V4: a ninth character. -/
theorem test_val_length : (after (exec .val (withId "401707255"))).res = 0 := by decide

/-- V10. -/
theorem test_lpat : (after (exec (.lpat 4) State.reset)).res = 0x23 := by decide

/-- V11. -/
theorem test_rpat : (after (exec (.rpat 9) State.reset)).res = 0x74 := by decide

/-- V16: found digit 0 against none. -/
theorem test_lrev : (after (exec (.lrev 0x0D) State.reset)).res = 0x80 ∧
    (after (exec (.lrev 0x0E) State.reset)).res = 0 := by decide

/-- V14: a left pattern is not in the right table. -/
theorem test_rrev : (after (exec (.rrev 0x74) State.reset)).res = 0x89 ∧
    (after (exec (.rrev 0x0D) State.reset)).res = 0 := by decide

/-- V15: both tables. -/
theorem test_urev : (after (exec (.urev 0x23) State.reset)).res = 0x84 ∧
    (after (exec (.urev 0x5C) State.reset)).res = 0x84 ∧ (after (exec (.urev 0x55) State.reset)).res = 0 := by decide

/-- V20. -/
theorem test_enc : after (exec .enc (ready "40170725" 1 1 0)) =
    { ready "40170725" 1 1 0 with pixw := 62, pixh := 1, pix := Mem.block 0 row } := by decide

/-- V26: the layout with an end guard. -/
theorem test_enc_l67 : (after (exec .enc { ready "55123457" 1 1 0 with config := l67 })).pix =
    Mem.block 0 (bitsOf 0x562C4C93542B93A25 67) := by decide

/-- V30. -/
theorem test_dec : after (exec .dec (matrix 62 1 row 1 0)) =
    { matrix 62 1 row 1 0 with outid := #v[0x34, 0x30, 0x31, 0x37, 0x30, 0x37, 0x32, 0x35] } := by decide

/-- V39: `PIXW` = 61, the last run leaves the row. -/
theorem test_dec_leaves_the_row : (after (exec .dec (matrix 61 1 row 1 0))).err = 6 := by decide

/-- V50. -/
theorem test_bmw : after (exec .bmw (matrix 3 2 [1, 0, 1, 0, 1, 0] 0 0)) =
    { matrix 3 2 [1, 0, 1, 0, 1, 0] 0 0 with
      txtlen := 19
      txt := Mem.block 0 [0x50, 0x31, 0x0A, 0x33, 0x20, 0x32, 0x0A, 0x31, 0x20, 0x30, 0x20, 0x31, 0x0A, 0x30, 0x20, 0x31,
        0x20, 0x30, 0x0A] } := by decide

/-- V52: no matrix. -/
theorem test_bmw_no_matrix : (after (exec .bmw State.reset)).err = 7 := by decide

/-- V55: a comment line, and pixels that are not separated. -/
theorem test_bmr : after (exec .bmr (text "P1\n# made by hand\n\n2 2\n0110")) =
    { text "P1\n# made by hand\n\n2 2\n0110" with pixw := 2, pixh := 2, pix := Mem.block 0 [0, 1, 1, 0] } := by decide

/-- V55: a comment after the width; V54: too few pixels. -/
theorem test_bmr_errors : (after (exec .bmr (text "P1\n2 # w\n2\n0110"))).err = 2 ∧
    (after (exec .bmr (text "P1\n2 2\n0 1 1"))).err = 3 := by decide

/-! ### Steps and transactions -/

/-- V60: bits 31..16 of a word written to `CMD` are not used. -/
theorem test_step_ignores_high_bits :
    after (step (about (.regWrite 0 0x00011223) State.reset)) = { State.reset with res := 0x84 } := by decide

theorem test_step_with_fetch_word :
    after (step (State.reset.withFetchWord 16 0x1223)) = { State.reset with res := 0x84 } := by decide

/-- V62: truncation, `CFG`, and register numbers that are not assigned. -/
theorem test_registers :
    (after (step (about (.regWrite 0x05 0x12345) State.reset))).modw = 0x2345 ∧
    (after (step (about (.regWrite 0x10 0x134) State.reset))).idbuf[0] = 0x34 ∧
    (after (step (about (.regRead 0x0B) State.reset))).reply = some 0x13E ∧
    (after (step (about (.regRead 0x0B) { State.reset with config := noBmc }))).reply = some 0x03E ∧
    (∀ n ∈ [0x0C, 0x0F, 0x1F, 0x28, 0xFF], (after (step (about (.regRead n) State.reset))).reply = some 0) := by decide

/-- V61: a write of `ESTICKY` clears the bits that are 1 in it. -/
theorem test_sticky_clear :
    (after (step (about (.regWrite 0x02 0x080) { State.reset with esticky := 0x282 }))).esticky = 0x202 := by decide

/-- R69: the last cell, and one beyond. -/
theorem test_memory_edge :
    (after (step (about (.pixWrite 1048575 3) State.reset))).pix = [(1048575, 1)] ∧
    refusalOf (step (about (.pixWrite 1048576 3) State.reset)) = some .pixAddress ∧
    refusalOf (step (about (.txtRead 2097184) State.reset)) = some .txtAddress ∧
    refusalOf (step (about (.txtRead 0) { State.reset with config := noBmc })) = some .txtAbsent := by decide

/-! ### Witnesses: a state and operands that meet all the hypotheses of each claim -/

theorem witness_HandwrittenWordsDecode : Config.standard.hasBmc = true := by decide

theorem witness_EncodedCommandDecodesToItself :
    (Instr.lpat 9).wellFormed Config.standard = true ∧ Instr.bmr.wellFormed Config.standard = true ∧
    (Instr.urev 127).wellFormed noBmc = true := by decide

theorem witness_DecodedWordIsTheOnlyEncoding : decode Config.standard 0x147F = .ok (.urev 127) := by decide

/-- One word for each line of the list of R97. -/
theorem witness_IllegalWord : IllegalWord Config.standard 0x0000 ∧ IllegalWord Config.standard 0x0101 ∧
    IllegalWord Config.standard 0x1010 ∧ IllegalWord Config.standard 0x100A ∧ IllegalWord Config.standard 0x1480 ∧
    IllegalWord noBmc 0x3000 ∧ ¬ IllegalWord Config.standard 0x3000 := by
  refine ⟨?_, ?_, ?_, ?_, ?_, ?_, ?_⟩ <;> unfold IllegalWord <;> decide

theorem witness_IllegalWordsAreThoseListed :
    State.reset.config = Config.standard ∧ IllegalWord Config.standard 0xFFFF := by unfold IllegalWord; decide

theorem witness_StepRunsTheDecodedCommand :
    (about (.regWrite 0 0x1223) State.reset).script = [.regWrite 0x00 0x1223] ∧
    decode State.reset.config (BitVec.ofNat 16 (0x1223 : Word).toNat) = .ok (.lrev 0x23) ∧
    decode State.reset.config (BitVec.ofNat 16 0x3100) = .ok .bmr := by decide

theorem witness_IllegalWordOnlyRecordsItself :
    (about (.regWrite 0 0x2001) State.reset).script = [.regWrite 0x00 0x2001] ∧
    IllegalWord State.reset.config (BitVec.ofNat 16 (0x2001 : Word).toNat) := by unfold IllegalWord; decide

theorem witness_IdleBlockHoldsItsState : State.reset.script = [] := by decide

/-- A read of each number where two rows of R20's table meet, and a write of each but `CMD`. -/
theorem witness_RegisterAccessFollowsTheTable :
    (∀ n ∈ [0x00, 0x01, 0x0A, 0x0B, 0x0C, 0x0F, 0x10, 0x1E, 0x1F, 0x20, 0x27, 0x28],
      (about (.regRead n) State.reset).script = [.regRead n]) ∧
    (∀ n ∈ [0x01, 0x02, 0x0A, 0x0B, 0x0C, 0x0F, 0x10, 0x1E, 0x1F, 0x20, 0x27, 0x28],
      (about (.regWrite n 0xFFFFFFFF) State.reset).script = [.regWrite n 0xFFFFFFFF] ∧ n ≠ 0x00) := by decide

theorem witness_StickyBitsFollowTheirRule :
    issue 0x0100 State.reset = .next (State.reset.raise .invalidIdentifier) ∧
    issue 0x0000 State.reset = .next (State.reset.raise .illegal) ∧
    (about (.regWrite 0x02 0x3FE) State.reset).script = [.regWrite 0x02 0x3FE] ∧
    step (about (.regWrite 0x02 0x3FE) State.reset) = .next State.reset ∧
    (about .reset State.reset).script = [.reset] ∧
    step (about .reset State.reset) = .next { State.reset with draws := 1 } ∧
    State.reset.esticky.getLsbD 0 = false ∧ step State.reset = .next State.reset :=
  ⟨rfl, rfl, rfl, rfl, rfl, rfl, rfl, rfl⟩

theorem witness_PixelTransactionsReachOneCell :
    0 < State.reset.config.pixCap.val ∧ 1048575 < State.reset.config.pixCap.val ∧
    (about (.pixRead 1048575) State.reset).script = [.pixRead 1048575] ∧
    (about (.pixWrite 1048575 1) State.reset).script = [.pixWrite 1048575 1] := by decide

theorem witness_TextTransactionsReachOneByte :
    State.reset.config.hasBmc = true ∧ 2097183 < State.reset.config.txtCap.val ∧
    (about (.txtRead 2097183) State.reset).script = [.txtRead 2097183] ∧
    (about (.txtWrite 2097183 0xFF) State.reset).script = [.txtWrite 2097183 0xFF] := by decide

theorem witness_OnlyAccessOutsideMemoryIsRefused :
    ((about (.pixRead 1048576) State.reset).script = [.pixRead 1048576] ∧ State.reset.config.pixCap.val ≤ 1048576) ∧
    ((about (.txtRead 0) { State.reset with config := noBmc }).script = [.txtRead 0] ∧ noBmc.hasBmc = false) ∧
    ((about (.txtWrite 2097184 0) State.reset).script = [.txtWrite 2097184 0] ∧ State.reset.config.hasBmc = true ∧
      State.reset.config.txtCap.val ≤ 2097184) := by decide

/-- The last clause: a state whose next transaction is an access to the last cell of `PIX`. -/
theorem witness_OnlyAccessOutsideMemoryIsRefused_next :
    let s := about (.pixRead 1048575) State.reset
    (∀ a rest, (s.script = .pixRead a :: rest ∨ ∃ v, s.script = .pixWrite a v :: rest) → a < s.config.pixCap.val) ∧
    (∀ a rest, (s.script = .txtRead a :: rest ∨ ∃ v, s.script = .txtWrite a v :: rest) →
      s.config.hasBmc = true ∧ a < s.config.txtCap.val) := by
  refine ⟨fun a rest h => ?_, fun a rest h => ?_⟩ <;> simp [about] at h
  rw [← h.1]; decide

theorem witness_HostResetGivesTheResetValues :
    (about .reset (withId "40170725")).script = [.reset] ∧
    ∃ u v more, u = { (after (step (about .reset (withId "40170725")))) with script := .reset :: more } ∧
      step u = .next v := ⟨rfl, _, _, [], rfl, rfl⟩

theorem witness_FirstCommandAfterReset : Config.standard.hasBmc = true ∧ (9 : BitVec 4).toNat ≤ 9 ∧
    Instr.rrev 127 ∈ [Instr.lrev 127, .rrev 127, .urev 127] := by decide

theorem witness_ChkAnswersTheCheckDigit :
    let s := withId "4017072"
    7 ≤ s.idlen.toNat ∧ ∀ i (h : i < 7), s.idbuf[i].toNat = 0x30 + digits4017[i].val := by decide

/-- `IDLEN` = 6; and the bytes before '0' and after '9' at the last index that is read. -/
theorem witness_ChkAnswersTheCheckDigit_errors :
    (withId "401707").idlen.toNat < 7 ∧ NotDigit (withId "401707/").idbuf[6] ∧ NotDigit (withId "401707:").idbuf[6] := by
  unfold NotDigit; decide

theorem witness_holdsIdentifier : HoldsIdentifier (withId "40170725") digits4017 := by unfold HoldsIdentifier; decide

theorem witness_noIdentifier : ¬ ∃ D, HoldsIdentifier State.reset D :=
  fun ⟨_, h, _⟩ => absurd h (by decide)

theorem witness_ValAnswersWhetherIdentifier :
    HoldsIdentifier (withId "40170725") digits4017 ∧ ¬ ∃ D, HoldsIdentifier State.reset D :=
  ⟨witness_holdsIdentifier, witness_noIdentifier⟩

theorem witness_CheckDigitFormsAgree : 189 ≤ 189 := by decide

theorem witness_ChkThenValAccepts :
    exec .chk (withId "4017072") = .next (after (exec .chk (withId "4017072"))) ∧
    (after (exec .chk (withId "4017072"))).err = 0 := ⟨rfl, by decide⟩

theorem witness_PatternLookupsReadTheTables :
    (9 : BitVec 4).toNat ≤ 9 ∧ leftNumbers[(9 : BitVec 4).toNat]? = some 11 ∧
    rightNumbers[(9 : BitVec 4).toNat]? = some 116 ∧ 9 < (10 : BitVec 4).toNat := by decide

theorem witness_ReverseLookupsFindTheDigit :
    leftNumbers[9]? = some (11 : Pattern).toNat ∧ rightNumbers[0]? = some (114 : Pattern).toNat ∧
    (127 : Pattern).toNat ∉ leftNumbers ∧ (127 : Pattern).toNat ∉ rightNumbers := by decide

/-- V22: a geometry with a margin, a pixel of the margin and a pixel of the bars, each in a corner of its part. -/
theorem witness_EncDrawsTheSymbol :
    let s := ready "40170725" 1 2 1
    HoldsIdentifier s digits4017 ∧ DrawReady s ∧ 63 < drawnWidth s ∧ 3 < drawnHeight s ∧
    drawnHeight s - s.margin.toNat ≤ 3 ∧ drawnWidth s - s.margin.toNat ≤ 63 ∧
    (s.margin.toNat ≤ 1 ∧ 1 < drawnHeight s - s.margin.toNat ∧ s.margin.toNat ≤ 62 ∧
      62 < drawnWidth s - s.margin.toNat) ∧
    drawnWidth s * drawnHeight s ≤ 256 := by
  unfold HoldsIdentifier DrawReady; decide

theorem witness_EncErrorsInOrder :
    (¬ ∃ D, HoldsIdentifier State.reset D) ∧
    (HoldsIdentifier (ready "40170725" 0 1 0) digits4017 ∧ (ready "40170725" 0 1 0).modw = 0) ∧
    (let s := ready "40170725" 16 993 16
     HoldsIdentifier s digits4017 ∧ s.modw ≠ 0 ∧ s.barh ≠ 0 ∧ s.config.pixCap.val < drawnWidth s * drawnHeight s) :=
  ⟨witness_noIdentifier, by unfold HoldsIdentifier; decide, by unfold HoldsIdentifier; decide⟩

theorem witness_DecRecoversTheDigits :
    let s := matrix 62 1 row 1 0
    DecodeReady s ∧ (∀ g (h : g < 8), GroupShows s g digits4017[g]) ∧ checkSumDigit digits4017 = digits4017[7].val := by
  unfold DecodeReady GroupShows RunFits; decide

/-- The rows of V39 that R204 decides; the last has `H` = 2·`MARGIN`. -/
theorem witness_DecPreconditionsInOrder :
    (matrix 62 1 row 0 0).modw = 0 ∧
    ((matrix 0 1 [] 1 0).modw ≠ 0 ∧ (matrix 0 1 [] 1 0).pixw = 0) ∧
    (let s := matrix 2048 1024 [] 1 0
     s.modw ≠ 0 ∧ s.pixw ≠ 0 ∧ s.pixh ≠ 0 ∧ s.config.pixCap.val < s.pixw.toNat * s.pixh.toNat) ∧
    (let s := matrix 62 2 [] 1 1
     s.modw ≠ 0 ∧ s.pixw ≠ 0 ∧ s.pixh ≠ 0 ∧ s.pixw.toNat * s.pixh.toNat ≤ s.config.pixCap.val ∧
       s.pixh.toNat ≤ 2 * s.margin.toNat) := by decide

/-- V39, `PIXW` = 61: seven good groups, then the last run of group 7 leaves the row. -/
theorem witness_DecWalkStopsAtTheFirstError_bounds :
    let s := matrix 61 1 row 1 0
    DecodeReady s ∧ (∀ g', g' < 7 → ∃ d, GroupShows s g' d) ∧ ¬ RunFits s (firstPosition s.config.layout 7 + 6) := by
  unfold DecodeReady GroupShows RunFits; decide

/-- V38: seven zeros are no left pattern. -/
theorem witness_DecWalkStopsAtTheFirstError_pattern :
    let s := matrix 62 1 (List.replicate 62 0) 1 0
    DecodeReady s ∧ (∀ k, k < 7 → RunFits s (firstPosition s.config.layout 0 + k)) ∧ ¬ ∃ d, GroupShows s 0 d := by
  unfold DecodeReady GroupShows RunFits; decide

/-- V34: eight good groups and a wrong check digit. -/
theorem witness_DecWalkStopsAtTheFirstError_checksum :
    let s := matrix 62 1 (row.take 55 ++ [1, 0, 1, 0, 0, 0, 0]) 1 0
    let D : Vector Digit 8 := #v[4, 0, 1, 7, 0, 7, 2, 6]
    DecodeReady s ∧ (∀ g (h : g < 8), GroupShows s g D[g]) ∧ checkSumDigit D ≠ D[7].val := by
  unfold DecodeReady GroupShows RunFits; decide

/-- V37: two matrices that differ in the guards. -/
theorem guardless_agrees : AgreeOnReads .dec (matrix 62 1 row 1 0) (matrix 62 1 guardless 1 0) := by
  refine ⟨rfl, rfl, rfl, rfl, rfl, fun g k hg hk => ?_⟩
  revert k; revert g; decide

theorem witness_DecIgnoresUnsampledPixels :
    let s := matrix 62 1 row 1 0
    let u := matrix 62 1 guardless 1 0
    AgreeOnReads .dec s u ∧ s.pixAt 0 ≠ u.pixAt 0 ∧ exec .dec s = .next (after (exec .dec s)) ∧
    exec .dec u = .next (after (exec .dec u)) ∧ (after (exec .dec s)).err = 0 :=
  ⟨guardless_agrees, by decide, rfl, rfl, by decide⟩

theorem header_three_two : headerBytes 3 2 = chars "P1\n3 2\n" := by
  norm_num [headerBytes, decimalBytes]; decide

theorem witness_BmwWritesTheText : WriteReady (matrix 3 2 [1, 0, 1, 0, 1, 0] 0 0) ∧
    2 < (matrix 3 2 [] 0 0).pixw.toNat ∧ 1 < (matrix 3 2 [] 0 0).pixh.toNat := by
  refine ⟨⟨by decide, by decide, by decide, by decide, ?_⟩, by decide, by decide⟩
  change (headerBytes 3 2).length + 2 * (3 * 2) ≤ 2097184
  rw [header_three_two]; decide

/-- The last clause in a block with a `TXT` of 18 bytes. -/
theorem witness_BmwErrorsInOrder :
    State.reset.config.hasBmc = true ∧ State.reset.pixw = 0 ∧
    (let s := matrix 2048 1024 [] 0 0
     s.pixw ≠ 0 ∧ s.pixh ≠ 0 ∧ s.config.pixCap.val < s.pixw.toNat * s.pixh.toNat) ∧
    (let s := { matrix 3 2 [] 0 0 with config := { Config.standard with txtCap := 18 } }
     s.config.hasBmc = true ∧ s.pixw ≠ 0 ∧ s.pixh ≠ 0 ∧ s.config.txtCap.val <
       (headerBytes s.pixw.toNat s.pixh.toNat).length + 2 * (s.pixw.toNat * s.pixh.toNat)) := by
  refine ⟨by decide, by decide, by decide, by decide, by decide, by decide, ?_⟩
  change 18 < (headerBytes 3 2).length + 2 * (3 * 2)
  rw [header_three_two]; decide

theorem holdsText_text (x : List Byte) (h : x.length ≤ 100) :
    HoldsText { State.reset with txtlen := BitVec.ofNat 24 x.length, txt := Mem.block 0 x } x := by
  refine ⟨rfl, ?_, h.trans (show 100 ≤ 2097184 by decide), fun a ha => ?_⟩
  · simp only [BitVec.toNat_ofNat]; omega
  · simp [State.txtAt, Mem.read_block, ha]

/-- A header with a comment line, a leading zero and two bytes of whitespace between the numbers. -/
theorem witness_isHeader : IsHeader (chars "P1\n#c\n02 \t2") 2 2 := by
  refine ⟨0x0A, chars "#c\n", chars "02", chars " \t", chars "2", by decide, by unfold IsSpace; decide, ?_, ?_, by decide,
    by unfold IsSpace; decide, ?_⟩
  · exact .comment (body := [0x63]) (cs := []) (by decide) .nil
  · exact ⟨by decide, by unfold NotDigit; decide, by decide⟩
  · exact ⟨by decide, by unfold NotDigit; decide, by decide⟩

/-- After that header: a bad byte, a fifth pixel, three pixels, four pixels. -/
theorem witness_BmrReadsThePixelArea :
    (∀ area ∈ [chars " 01x0", chars " 01101", chars " 011", chars " 0110"],
      ∃ s, HoldsText s (chars "P1\n#c\n02 \t2" ++ area)) ∧ IsHeader (chars "P1\n#c\n02 \t2") 2 2 ∧
    2 * 2 ≤ State.reset.config.pixCap.val ∧
    (∀ area ∈ [chars " 01x0", chars " 01101", chars " 011", chars " 0110"], AreaDelimited area) ∧
    ¬ AreaClean (chars " 01x0") ∧
    (AreaClean (chars " 01101") ∧ 2 * 2 < (areaPixels (chars " 01101")).length) ∧
    (AreaClean (chars " 011") ∧ (areaPixels (chars " 011")).length < 2 * 2) ∧
    (AreaClean (chars " 0110") ∧ (areaPixels (chars " 0110")).length = 2 * 2) := by
  refine ⟨fun area ha => ⟨_, holdsText_text _ (by revert ha; revert area; decide)⟩, witness_isHeader, by decide, ?_, ?_,
    ?_, ?_, ?_⟩
  · intro area ha c hc
    simp only [List.mem_cons, List.not_mem_nil, or_false] at ha
    rcases ha with rfl | rfl | rfl | rfl <;> (cases hc; unfold IsSpace; decide)
  all_goals unfold AreaClean IsSpace; decide

theorem witness_BmrRequiresTheMagicToken :
    (∃ s, HoldsText s (chars "P10")) ∧
    (¬ ∃ rest, chars "P10" = 0x50 :: 0x31 :: rest ∧ ∀ c, rest.head? = some c → IsSpace c) ∧
    (let s := { text "P1\n1 1\n1" with config := { Config.standard with txtCap := 7 } }
     s.config.hasBmc = true ∧ s.config.txtCap.val < s.txtlen.toNat) := by
  refine ⟨⟨_, holdsText_text _ (by decide)⟩, ?_, by decide⟩
  rintro ⟨rest, h, hs⟩
  have hr : rest = [0x30] := by simpa [chars] using h.symm
  subst hr
  exact absurd (hs 0x30 rfl) (by unfold IsSpace; decide)

/-- The text "P1" alone, and tails that meet the hypotheses of each other clause, after "P1", LF and a run of
whitespace. -/
theorem witness_BmrChecksTheDimensions :
    (∃ s, HoldsText s [0x50, 0x31]) ∧
    (∀ tail ∈ [chars "-2 2", chars "#c", chars "2#", chars "2 # w", chars "2 2#", chars "0 2", chars "1048577 1"],
      ∃ s, HoldsText s ([0x50, 0x31, 0x0A] ++ [0x20] ++ tail)) ∧ IsSpace 0x0A ∧ BlankLines [0x20] ∧
    (∀ d, (chars "-2 2").head? = some d → NotDigit d ∧ ¬ IsSpace d ∧ d ≠ 0x23) ∧
    (∃ body, chars "#c" = 0x23 :: body ∧ ∀ d ∈ body, d ≠ 0x0A) ∧
    (chars "2#" = chars "2" ++ chars "#" ∧ IsNumber (chars "2") 2 ∧
      ∀ d, (chars "#").head? = some d → NotDigit d ∧ ¬ IsSpace d) ∧
    (chars "2 # w" = chars "2" ++ chars " " ++ chars "# w" ∧ ∀ d ∈ chars " ", IsSpace d) ∧
    (chars "2 2#" = chars "2" ++ chars " " ++ chars "2" ++ 0x23 :: [] ∧ NotDigit 0x23 ∧ ¬ IsSpace 0x23) ∧
    (chars "0 2" = chars "0" ++ chars " " ++ chars "2" ++ [] ∧ IsNumber (chars "0") 0 ∧ AreaDelimited []) ∧
    (chars "1048577 1" = chars "1048577" ++ chars " " ++ chars "1" ++ [] ∧ IsNumber (chars "1048577") 1048577 ∧
      IsNumber (chars "1") 1 ∧ State.reset.config.pixCap.val < 1048577 * 1) := by
  have hs : ∀ c : Byte, c = 0x20 ∨ c = 0x0A → IsSpace c := fun c h => by unfold IsSpace; tauto
  refine ⟨⟨_, holdsText_text _ (by decide)⟩,
    fun tail ht => ⟨_, holdsText_text _ (by revert ht; revert tail; decide)⟩, by unfold IsSpace; decide, .space (hs _ (.inl rfl)) .nil, ?_,
    ⟨[0x63], by decide, by decide⟩, ⟨by decide, ⟨by decide, ?_, by decide⟩, ?_⟩, ⟨by decide, ?_⟩, ⟨by decide, ?_, ?_⟩,
    ⟨by decide, ⟨by decide, ?_, by decide⟩, ?_⟩, by decide, ⟨by decide, ?_, by decide⟩, ⟨by decide, ?_, by decide⟩, by decide⟩
  case refine_1 | refine_3 => intro d hd; cases hd; unfold NotDigit IsSpace; decide
  case refine_8 => intro c hc; cases hc
  all_goals first | (unfold NotDigit; decide) | (unfold IsSpace; decide)

theorem witness_ErrorKindsPerCommand :
    Instr.chk.wellFormed State.reset.config = true ∧
    exec .chk State.reset = .next (State.reset.raise .invalidIdentifier) ∧
    (State.reset.raise .invalidIdentifier).err ≠ 0 ∧ IllegalWord State.reset.config 0x3101 :=
  ⟨rfl, rfl, by decide, by unfold IllegalWord; decide⟩

/-- A success of each command that writes memory or `OUTID`, and an address beyond what it writes. -/
theorem witness_CommandsWriteOnlyTheirState :
    exec .enc (ready "40170725" 1 1 0) = .next (after (exec .enc (ready "40170725" 1 1 0))) ∧
    drawnWidth (ready "40170725" 1 1 0) * drawnHeight (ready "40170725" 1 1 0) ≤ 62 ∧
    exec .dec (matrix 62 1 row 1 0) = .next (after (exec .dec (matrix 62 1 row 1 0))) ∧
    exec .bmw (matrix 3 2 [1, 0, 1, 0, 1, 0] 0 0) = .next (after (exec .bmw (matrix 3 2 [1, 0, 1, 0, 1, 0] 0 0))) ∧
    (after (exec .bmw (matrix 3 2 [1, 0, 1, 0, 1, 0] 0 0))).txtlen.toNat ≤ 19 ∧
    exec .bmr (text "P1\n1 1\n1") = .next (after (exec .bmr (text "P1\n1 1\n1"))) ∧
    (after (exec .bmr (text "P1\n1 1\n1"))).pixw.toNat * (after (exec .bmr (text "P1\n1 1\n1"))).pixh.toNat ≤ 1 := by
  refine ⟨rfl, by decide, rfl, rfl, by decide, rfl, by decide⟩

/-- States that differ in what each command does not read. -/
theorem witness_CommandsReadOnlyTheirState :
    AgreeOnReads .chk (withId "4017072") { withId "40170729" with idlen := 7 } ∧
    AgreeOnReads .val (withId "40170725") { withId "401707259" with idlen := 8 } ∧
    AgreeOnReads (.lpat 9) State.reset (withId "40170725") ∧
    AgreeOnReads .enc (ready "40170725" 1 1 0) { ready "40170725" 1 1 0 with pixw := 5, pix := [(3, 1)] } ∧
    AgreeOnReads .dec (matrix 62 1 row 1 0) (matrix 62 1 guardless 1 0) ∧
    AgreeOnReads .bmw (matrix 1 1 [1] 0 0) (matrix 1 1 [1, 0] 5 5) ∧
    AgreeOnReads .bmr (text "P1\n1 1\n1") { text "P1\n1 1\n1 " with txtlen := 8 } ∧
    exec .bmr (text "P1\n1 1\n1") = .next (after (exec .bmr (text "P1\n1 1\n1"))) ∧
    (after (exec .bmr (text "P1\n1 1\n1"))).err = 0 :=
  ⟨⟨rfl, by decide⟩, ⟨rfl, by decide⟩, ⟨rfl, trivial⟩, ⟨rfl, by decide⟩, guardless_agrees, ⟨rfl, by decide⟩,
    ⟨rfl, by decide⟩, rfl, by decide⟩

theorem witness_FailedCommandFailsAgain :
    exec .dec State.reset = .next (State.reset.raise .geometry) ∧ (State.reset.raise .geometry).err ≠ 0 :=
  ⟨rfl, by decide⟩

theorem witness_OnlyTheHostChangesOperands :
    let s := about (.regWrite 0x05 2) State.reset
    step s = .next { State.reset with modw := 2 } ∧ { State.reset with modw := 2 }.modw ≠ s.modw := ⟨rfl, by decide⟩

/-- What V20 drew, in a state whose other registers differ. -/
theorem witness_DecodeRecoversWhatEncodeDrew :
    let s := ready "40170725" 1 1 0
    let t := after (exec .enc s)
    exec .enc s = .next t ∧ t.err = 0 ∧
    ∃ u : State, u.idlen ≠ t.idlen ∧ u.config = t.config ∧ u.modw = t.modw ∧ u.margin = t.margin ∧ u.pixw = t.pixw ∧
      u.pixh = t.pixh ∧ ∀ a, a < t.pixw.toNat * t.pixh.toNat → u.pixAt a = t.pixAt a := by
  intro s t
  exact ⟨rfl, by decide, { t with idlen := 0 }, by decide, rfl, rfl, rfl, rfl, rfl, fun _ _ => rfl⟩

/-- V35 and V36: pixel 3 is sampled and pixel 0 is not. -/
theorem witness_FlippedPixelIsNoticedOrHarmless :
    let s := ready "40170725" 1 1 0
    let t := after (exec .enc s)
    exec .enc s = .next t ∧ t.err = 0 ∧ (∀ a ∈ [0, 3], a < t.pixw.toNat * t.pixh.toNat ∧
      (t.writePix a (1 - t.pixAt a)).pixAt a ≠ t.pixAt a ∧
      ∀ b, b ≠ a → (t.writePix a (1 - t.pixAt a)).pixAt b = t.pixAt b) ∧
    3 = t.pixh.toNat / 2 * t.pixw.toNat + t.margin.toNat + (firstPosition t.config.layout 0 + 0) * t.modw.toNat ∧
    ¬ ∃ g k, g < 8 ∧ k < 7 ∧ 0 = t.pixh.toNat / 2 * t.pixw.toNat + t.margin.toNat +
      (firstPosition t.config.layout g + k) * t.modw.toNat := by
  intro s t
  refine ⟨rfl, by decide, fun a ha => ⟨?_, ?_, fun b hb => ?_⟩, by decide, ?_⟩
  · revert a; decide
  · rw [State.writePix_pixAt, if_pos rfl]
    generalize t.pixAt a = b
    revert b; decide
  · rw [State.writePix_pixAt, if_neg hb]
  · rintro ⟨g, k, hg, hk, h⟩
    revert k; revert g; decide

theorem witness_ReadRecoversWhatWriteWrote :
    let s := matrix 3 2 [1, 0, 1, 0, 1, 0] 0 0
    let t := after (exec .bmw s)
    exec .bmw s = .next t ∧ t.err = 0 ∧ ∃ u : State, u.pixw ≠ t.pixw ∧ u.config = t.config ∧ u.txtlen = t.txtlen ∧
      ∀ a, a < t.txtlen.toNat → u.txtAt a = t.txtAt a := by
  intro s t
  exact ⟨rfl, by decide, { t with pixw := 0 }, by decide, rfl, rfl, fun _ _ => rfl⟩

/-- A sound state that is not the reset state: an identifier in `OUTID`, cells written, a failure recorded. -/
theorem witness_StepKeepsSound :
    let s := { about (.regWrite 0 0x2100) (matrix 62 1 row 1 0) with
      outid := #v[0x34, 0x30, 0x31, 0x37, 0x30, 0x37, 0x32, 0x35], err := 5, esticky := 0b100000, res := 0x89 }
    s.Sound ∧ step s = .next (after (step s)) := by
  intro s
  refine ⟨⟨by decide, by decide, by decide, .inr (by decide), ?_, by decide, by decide, by decide, by decide⟩, rfl⟩
  exact Mem.wf_block 0 row

end Sys2Proof.Tests
end

/-! Register access (spec/10_state.md R20, R41): the number of a register, and what the table says at that number. -/

namespace Sys2Proof.Machine

open Sys2Proof.Claims

/-- The number of a register (R20). -/
def Reg.number : Reg → Nat
  | .cmd => 0x00
  | .err => 0x01
  | .esticky => 0x02
  | .res => 0x03
  | .idlen => 0x04
  | .modw => 0x05
  | .barh => 0x06
  | .margin => 0x07
  | .pixw => 0x08
  | .pixh => 0x09
  | .txtlen => 0x0A
  | .cfg => 0x0B
  | .idbuf i => 0x10 + i
  | .outid i => 0x20 + i

/-- A number that names a register is that register's. -/
theorem number_of_regOf {c : Config} {n : Nat} {r : Reg} (h : regOf c n = some r) : n = r.number := by
  unfold regOf at h
  split at h
  · cases h; simp only [Reg.number]; omega
  · split at h
    · cases h; simp only [Reg.number]; omega
    · split at h
      case h_11 => -- `TXTLEN`, the one number that depends on `HAS_BMC`
        split at h <;> cases h
        rfl
      all_goals cases h
      all_goals rfl

/-- `CFG` in numbers: `TOTAL` in bits 7..0, `HAS_BMC` in bit 8 (R31). -/
theorem cfgValue_toNat (c : Config) : (cfgValue c).toNat = total c.layout + (if c.hasBmc then 256 else 0) := by
  unfold cfgValue
  cases c.layout <;> cases c.hasBmc <;> decide

/-- The table's value at the number of a register the block has is what the register reads as. -/
theorem registerValue_number {s : State} {r : Reg} (h : r = .txtlen → s.config.hasBmc = true) :
    BitVec.ofNat 32 (registerValue s r.number) = s.readReg r := by
  cases r with
  | txtlen => simp [registerValue, Reg.number, State.readReg, h rfl]
  | cfg => simp [registerValue, Reg.number, State.readReg, ← cfgValue_toNat]
  | idbuf i =>
    have hlow (m : Nat) (hm : m < 0x10) : 0x10 + i.val ≠ m := by omega
    have hi : 0x10 + i.val ≤ 0x1E := by omega
    simp [registerValue, Reg.number, State.readReg, hlow, hi]
  | outid i =>
    have hlow (m : Nat) (hm : m < 0x20) : 0x20 + i.val ≠ m := by omega
    have hb : ¬ 0x20 + i.val ≤ 0x1E := by omega
    have hi : 0x20 + i.val ≤ 0x27 := by omega
    simp [registerValue, Reg.number, State.readReg, hlow, hb, hi]
  | cmd | err | esticky | res | idlen | modw | barh | margin | pixw | pixh =>
    simp [registerValue, Reg.number, State.readReg]

/-- What the table makes of a write at the number of a register the block has is what the model's register write does. -/
theorem registerWritten_number {s : State} {r : Reg} (v : Word) (h : r = .txtlen → s.config.hasBmc = true) :
    registerWritten s r.number v = s.writeReg v r := by
  cases r with
  | txtlen => simp [registerWritten, Reg.number, State.writeReg, h rfl]
  | idbuf i =>
    have hlow (m : Nat) (hm : m < 0x10) : 0x10 + i.val ≠ m := by omega
    have hi : 0x10 + i.val ≤ 0x1E := by omega
    simp [registerWritten, Reg.number, State.writeReg, hlow, hi]
  | outid i =>
    have hlow (m : Nat) (hm : m < 0x20) : 0x20 + i.val ≠ m := by omega
    have hb : ¬ 0x20 + i.val ≤ 0x1E := by omega
    simp [registerWritten, Reg.number, State.writeReg, hlow, hb]
  | cmd | err | esticky | res | idlen | modw | barh | margin | pixw | pixh | cfg =>
    simp [registerWritten, Reg.number, State.writeReg, stickyAfterWrite]

/-- The numbers that name no register: between and above the rows of R20's table, and 0x0A when `HAS_BMC` = 0. -/
theorem unassigned_of_regOf_eq_none {c : Config} {n : Nat} (h : regOf c n = none) :
    ¬ (0x10 ≤ n ∧ n ≤ 0x1E) ∧ ¬ (0x20 ≤ n ∧ n ≤ 0x27) ∧ (0x0B < n ∨ n = 0x0A ∧ ¬ c.hasBmc = true) := by
  refine ⟨fun hi => ?_, fun hi => ?_, ?_⟩
  · rw [regOf, dif_pos hi] at h
    cases h
  · have hid : ¬ (0x10 ≤ n ∧ n ≤ 0x1E) := by omega
    rw [regOf, dif_neg hid, dif_pos hi] at h
    cases h
  · obtain hlow | rfl | rfl | habove : n < 0x0A ∨ n = 0x0A ∨ n = 0x0B ∨ 0x0B < n := by omega
    · interval_cases n <;> cases h
    · exact .inr ⟨rfl, fun hb => Option.some_ne_none _ ((if_pos hb).symm.trans h)⟩
    · cases h
    · exact .inl habove

/-- Where no register stands the table reads 0 and ignores a write (R41). -/
theorem register_unassigned {s : State} {n : Nat} (h : regOf s.config n = none) (v : Word) :
    registerValue s n = 0 ∧ registerWritten s n v = s := by
  obtain ⟨hid, hout, habove | ⟨rfl, hbmc⟩⟩ := unassigned_of_regOf_eq_none h
  · have hlow (m : Nat) (hm : m ≤ 0x0B) : n ≠ m := by omega
    constructor
    · rw [registerValue]
      simp [hlow, dif_neg hid, dif_neg hout]
    · rw [registerWritten]
      simp [hlow, dif_neg hid]
  · simp [registerValue, registerWritten, hbmc]

/-- A register read returns the table's value and changes nothing else (R41, R64). -/
theorem regRead_eq (n : Nat) (s : State) : regRead n s = s.answer (BitVec.ofNat 32 (registerValue s n)) := by
  unfold regRead
  split
  next r hr =>
    rw [number_of_regOf hr, registerValue_number fun e => regOf_eq_txtlen (e ▸ hr)]
  next hr => rw [(register_unassigned hr 0).1]; rfl

/-- A register write, `CMD` apart, makes of the block what the table says (R41, R64). -/
theorem regWrite_eq {n : Nat} (hn : n ≠ 0) (v : Word) (s : State) :
    regWrite n v s = .next (registerWritten s n v) := by
  unfold regWrite
  split
  next hr => exact absurd (regOf_eq_cmd hr) hn
  next r _ hr =>
    rw [number_of_regOf hr, registerWritten_number v fun e => regOf_eq_txtlen (e ▸ hr)]
  next hr => rw [(register_unassigned hr v).2]

/-- Settles O8: the step takes the transaction, and register reads and writes follow the table. -/
theorem registerAccessFollowsTheTable : Obligations.RegisterAccessFollowsTheTable := by
  unfold Obligations.RegisterAccessFollowsTheTable
  intro s n rest
  constructor
  · intro h
    calc step s = .next (regRead n (s.take rest)) := step_of_script h
      _ = _ := by rw [regRead_eq]; rfl
  · intro v h hn
    calc step s = regWrite n v (s.take rest) := step_of_script h
      _ = _ := regWrite_eq hn v _

end Sys2Proof.Machine

/-! The bits of `ESTICKY` (spec/10_state.md R24): which events set and clear them. -/

namespace Sys2Proof.Machine

/-- The sticky word of a kind has the bit of its code and no other. -/
theorem ErrorKind.stickyBit_getLsbD (k : ErrorKind) (j : Nat) : k.stickyBit.getLsbD j = decide (k.code = j) := by
  have hk : k.code < 10 := Nat.lt_succ_of_le k.code_range.2
  simp [ErrorKind.stickyBit, BitVec.getLsbD_twoPow, hk]

/-- A command either raises a kind, or ends with `ERR` 0 and `ESTICKY` as it was (R279, R280). -/
theorem exec_raise_or_keeps_esticky {i : Instr} {s t : State} (h : exec i s = .next t) :
    (∃ k, t = s.raise k) ∨ (t.err = 0 ∧ t.esticky = s.esticky) := by
  rcases exec_cases h with hk | ⟨-, v, rfl, -⟩ | ⟨-, M, -, rfl⟩ | ⟨-, M, -, rfl⟩ | ⟨-, d, -, rfl⟩ | ⟨-, x, -, rfl⟩
  · exact .inl hk
  all_goals exact .inr ⟨rfl, rfl⟩

/-- Likewise a command word, legal or not: an illegal one raises `E_ILLEGAL` (R278). -/
theorem issue_raise_or_keeps_esticky {w : CmdWord} {s t : State} (h : issue w s = .next t) :
    (∃ k, t = s.raise k) ∨ (t.err = 0 ∧ t.esticky = s.esticky) := by
  unfold issue at h
  split at h
  · exact exec_raise_or_keeps_esticky h
  · cases h; exact .inl ⟨.illegal, rfl⟩

/-- After `raise`, `ERR` is the code of the kind (R280). -/
theorem State.raise_err_toNat (s : State) (k : ErrorKind) : (s.raise k).err.toNat = k.code := by cases k <;> rfl

/-- The bits of `ESTICKY` after a command word: those that were set, and that of the code in `ERR` (R24). -/
theorem issue_esticky_getLsbD {w : CmdWord} {s t : State} {j : Nat} (h : issue w s = .next t) (hj : 1 ≤ j) :
    t.esticky.getLsbD j = (s.esticky.getLsbD j || decide (t.err.toNat = j)) := by
  rcases issue_raise_or_keeps_esticky h with ⟨k, rfl⟩ | ⟨herr, hsticky⟩
  · rw [State.raise_esticky, BitVec.getLsbD_or, ErrorKind.stickyBit_getLsbD, State.raise_err_toNat]
  · have hne : (0 : BitVec 4).toNat ≠ j := by simpa using (Nat.ne_of_gt hj).symm
    rw [hsticky, herr, decide_eq_false hne, Bool.or_false]

/-- A host write of `ESTICKY` clears the bits that are 1 in the word and no other (R24). -/
theorem stickyAfterWrite_getLsbD (old : BitVec 10) (v : Word) {j : Nat} (hj : j < 10) :
    (stickyAfterWrite old v).getLsbD j = (old.getLsbD j && !v.getLsbD j) := by
  simp [stickyAfterWrite, hj]

/-- No error kind has code 0, so raising one leaves bit 0 (R24). -/
theorem State.raise_esticky_zero (s : State) (k : ErrorKind) :
    (s.raise k).esticky.getLsbD 0 = s.esticky.getLsbD 0 := by
  have hk : k.code ≠ 0 := Nat.ne_of_gt k.code_range.1
  rw [State.raise_esticky, BitVec.getLsbD_or, ErrorKind.stickyBit_getLsbD, decide_eq_false hk, Bool.or_false]

/-- A host write of a register never sets bit 0 of `ESTICKY`. -/
theorem State.writeReg_esticky_zero {s : State} (h : s.esticky.getLsbD 0 = false) (v : Word) (r : Reg) :
    (s.writeReg v r).esticky.getLsbD 0 = false := by
  cases r with
  | esticky =>
    change (stickyAfterWrite s.esticky v).getLsbD 0 = false
    rw [stickyAfterWrite_getLsbD _ _ (by decide), h, Bool.false_and]
  | cmd | err | res | idlen | modw | barh | margin | pixw | pixh | txtlen | cfg | idbuf | outid => exact h

/-- Bit 0 of `ESTICKY` stays 0 in every transaction (R24). -/
theorem transact_esticky_zero {tr : Transaction} {s t : State} (h0 : s.esticky.getLsbD 0 = false)
    (h : transact tr s = .next t) : t.esticky.getLsbD 0 = false := by
  rcases transact_cases h with ⟨v, rfl⟩ | ⟨n, v, -, -, rfl⟩ | ⟨n, v, r, -, -, -, rfl⟩ |
    ⟨v, -, rfl | ⟨i, -, hexec⟩⟩ | ⟨a, v, -, -, rfl⟩ | ⟨a, v, -, -, -, rfl⟩ | ⟨-, rfl⟩
  · exact h0
  · exact h0
  · exact State.writeReg_esticky_zero h0 v r
  · rw [State.raise_esticky_zero, h0]
  · rcases exec_raise_or_keeps_esticky hexec with ⟨k, rfl⟩ | ⟨-, hsticky⟩
    · rw [State.raise_esticky_zero, h0]
    · rw [hsticky, h0]
  · exact h0
  · exact h0
  · simp

/-- Settles O9: by what a command word, a host write of `ESTICKY`, a reset and any step make of the bits. -/
theorem stickyBitsFollowTheirRule : Obligations.StickyBitsFollowTheirRule := by
  unfold Obligations.StickyBitsFollowTheirRule
  refine ⟨fun w s t k h hk _ => issue_esticky_getLsbD h hk, ?_, ?_, ?_⟩
  · intro s t v rest k hscript h hk
    rw [step_of_script hscript] at h
    cases h
    exact stickyAfterWrite_getLsbD s.esticky v (Nat.lt_succ_of_le hk)
  · intro s t rest hscript h
    rw [step_of_script hscript] at h
    cases h
    rfl
  · intro s t h0 h
    rcases step_cases h with ⟨-, rfl⟩ | ⟨tr, rest, -, htr⟩
    · exact h0
    · exact transact_esticky_zero (s := s.take rest) h0 htr

end Sys2Proof.Machine

/-! Which transactions have a step (spec/20_memory.md R69): all but the accesses outside a memory. -/

namespace Sys2Proof.Machine

/-- No command stops the block: each ends in `raise` or in `done` (R279, R280, R284). -/
theorem exec_has_next (i : Instr) (s : State) : ∃ t, exec i s = .next t := by
  cases i with
  | chk | val | lpat | rpat | lrev | rrev | urev | enc | dec | bmw | bmr => exact ⟨_, rfl⟩

/-- Nor does a command word, legal or not (R278). -/
theorem issue_has_next (w : CmdWord) (s : State) : ∃ t, issue w s = .next t := by
  unfold issue
  split
  · exact exec_has_next _ s
  · exact ⟨_, rfl⟩

/-- A register write has a step at every number, `CMD` included (R22, R41). -/
theorem regWrite_has_next (n : Nat) (v : Word) (s : State) : ∃ t, regWrite n v s = .next t := by
  unfold regWrite
  split
  · exact issue_has_next _ s
  · exact ⟨_, rfl⟩
  · exact ⟨_, rfl⟩

theorem pixAccess_inside {a : Nat} {s : State} (t : State) (h : a < s.config.pixCap.val) :
    pixAccess a s t = .next t := if_pos h

theorem pixAccess_outside {a : Nat} {s : State} (t : State) (h : s.config.pixCap.val ≤ a) :
    pixAccess a s t = .refused .pixAddress := if_neg h.not_gt

theorem txtAccess_absent {s : State} (a : Nat) (t : State) (h : s.config.hasBmc = false) :
    txtAccess a s t = .refused .txtAbsent := if_pos h

theorem txtAccess_inside {a : Nat} {s : State} (t : State) (hb : s.config.hasBmc = true)
    (h : a < s.config.txtCap.val) : txtAccess a s t = .next t := by
  simp [txtAccess, hb, h]

theorem txtAccess_outside {a : Nat} {s : State} (t : State) (hb : s.config.hasBmc = true)
    (h : s.config.txtCap.val ≤ a) : txtAccess a s t = .refused .txtAddress := by
  simp [txtAccess, hb, h.not_gt]

/-- The step of a read or a write of `PIX` is an access to its address. -/
theorem step_of_pix {s : State} {a : Nat} {rest : List Transaction}
    (h : s.script = .pixRead a :: rest ∨ ∃ v, s.script = .pixWrite a v :: rest) :
    ∃ t, step s = pixAccess a (s.take rest) t := by
  rcases h with h | ⟨v, h⟩
  · exact ⟨_, step_of_script h⟩
  · exact ⟨_, step_of_script h⟩

/-- The step of a read or a write of `TXT` is an access to its address. -/
theorem step_of_txt {s : State} {a : Nat} {rest : List Transaction}
    (h : s.script = .txtRead a :: rest ∨ ∃ v, s.script = .txtWrite a v :: rest) :
    ∃ t, step s = txtAccess a (s.take rest) t := by
  rcases h with h | ⟨v, h⟩
  · exact ⟨_, step_of_script h⟩
  · exact ⟨_, step_of_script h⟩

/-- When the next transaction is no access outside a memory, the block has a next state (R69, R284). -/
theorem step_has_next {s : State}
    (hpix : ∀ a rest, (s.script = .pixRead a :: rest ∨ ∃ v, s.script = .pixWrite a v :: rest) →
      a < s.config.pixCap.val)
    (htxt : ∀ a rest, (s.script = .txtRead a :: rest ∨ ∃ v, s.script = .txtWrite a v :: rest) →
      s.config.hasBmc = true ∧ a < s.config.txtCap.val) :
    ∃ t, step s = .next t := by
  have pix_next {a rest} (h : s.script = .pixRead a :: rest ∨ ∃ v, s.script = .pixWrite a v :: rest) :
      ∃ t, step s = .next t := by
    obtain ⟨t, ht⟩ := step_of_pix h
    exact ⟨t, ht.trans (pixAccess_inside t (hpix a rest h))⟩
  have txt_next {a rest} (h : s.script = .txtRead a :: rest ∨ ∃ v, s.script = .txtWrite a v :: rest) :
      ∃ t, step s = .next t := by
    obtain ⟨t, ht⟩ := step_of_txt h
    obtain ⟨hbmc, ha⟩ := htxt a rest h
    exact ⟨t, ht.trans (txtAccess_inside t hbmc ha)⟩
  cases hs : s.script with
  | nil => exact ⟨s, by rw [step, nextTransaction, hs]⟩
  | cons tr rest =>
    cases tr with
    | pixRead a => exact pix_next (.inl hs)
    | pixWrite a v => exact pix_next (.inr ⟨v, hs⟩)
    | txtRead a => exact txt_next (.inl hs)
    | txtWrite a v => exact txt_next (.inr ⟨v, hs⟩)
    | regWrite n v => rw [step_of_script hs]; exact regWrite_has_next n v _
    | regRead | reset => exact ⟨_, step_of_script hs⟩

/-- Settles O12: an access outside a memory meets its refusal, and every other transaction has a next state. -/
theorem onlyAccessOutsideMemoryIsRefused : Obligations.OnlyAccessOutsideMemoryIsRefused := by
  unfold Obligations.OnlyAccessOutsideMemoryIsRefused
  refine fun s => ⟨fun a rest h ha => ?_, fun a rest h hbmc => ?_, fun a rest h hbmc ha => ?_, step_has_next⟩
  · obtain ⟨t, ht⟩ := step_of_pix h
    exact ⟨_, ht.trans (pixAccess_outside t ha)⟩
  · obtain ⟨t, ht⟩ := step_of_txt h
    exact ⟨_, ht.trans (txtAccess_absent a t hbmc)⟩
  · obtain ⟨t, ht⟩ := step_of_txt h
    exact ⟨_, ht.trans (txtAccess_outside t hbmc ha)⟩

end Sys2Proof.Machine

/-! The legal command words (spec/30_encoding.md R90 to R98): which word stands for which command, how many there are,
and what the decoder refuses. -/

namespace Sys2Proof

/-! ### The word of a command -/

/-- The column `op` of R94. -/
def Instr.opCode : Instr → BitVec 8
  | .chk => 0x01
  | .val => 0x02
  | .lpat _ => 0x10
  | .rpat _ => 0x11
  | .lrev _ => 0x12
  | .rrev _ => 0x13
  | .urev _ => 0x14
  | .enc => 0x20
  | .dec => 0x21
  | .bmw => 0x30
  | .bmr => 0x31

/-- The field `arg` of a command's word: its operand, or 0 (R91 to R93, R95). -/
def Instr.argBits : Instr → BitVec 8
  | .lpat d | .rpat d => d.setWidth 8
  | .lrev pat | .rrev pat | .urev pat => pat.setWidth 8
  | .chk | .val | .enc | .dec | .bmw | .bmr => 0

/-- The encoder puts the code and the operand in the two fields of R90. -/
theorem encode_eq_fields (i : Instr) : encode i = i.opCode ++ i.argBits := by
  cases i with
  | chk | val | enc | dec | bmw | bmr => rfl
  | lpat d | rpat d => revert d; decide
  | lrev t | rrev t | urev t => revert t; decide

/-- The word of a command the block has decodes to that command (R94, R95). -/
theorem decode_encode {c : Config} {i : Instr} (h : i.wellFormed c = true) : decode c (encode i) = .ok i := by
  rw [encode_eq_fields, decode, opField_append, argField_append]
  cases i with
  | chk | val | enc | dec => exact formatN_eq_ok.2 ⟨rfl, rfl⟩
  | lpat d | rpat d => exact formatD_eq_ok.2 ⟨d, of_decide_eq_true h, rfl, rfl⟩
  | lrev t | rrev t | urev t => exact formatP_eq_ok.2 ⟨t, rfl, rfl⟩
  | bmw | bmr => exact formatBmc_eq_ok.2 ⟨h, rfl, rfl⟩

/-- The eleven codes of R97. -/
def opCodes : List (BitVec 8) := [0x01, 0x02, 0x10, 0x11, 0x12, 0x13, 0x14, 0x20, 0x21, 0x30, 0x31]

/-- What the decoder can answer (R98): what the format of the word's code makes of its operand field, or that there is
no such code. -/
theorem decode_cases {c : Config} {w : CmdWord} {r : Except DecodeError Instr} (h : decode c w = r) :
    (∃ i ∈ [.chk, .val, .enc, .dec], opField w = i.opCode ∧ r = formatN (argField w) i) ∨
    (∃ mk ∈ [.lpat, .rpat], opField w = (mk 0).opCode ∧ r = formatD (argField w) mk) ∨
    (∃ mk ∈ [.lrev, .rrev, .urev], opField w = (mk 0).opCode ∧ r = formatP (argField w) mk) ∨
    (∃ i ∈ [.bmw, .bmr], opField w = i.opCode ∧ r = formatBmc c (argField w) i) ∨
    (opField w ∉ opCodes ∧ r = .error .unknownOp) := by
  rw [decode] at h
  generalize opField w = op at h ⊢
  by_cases hop : op ∈ opCodes
  · fin_cases hop
    · exact .inl ⟨.chk, by decide, rfl, h.symm⟩
    · exact .inl ⟨.val, by decide, rfl, h.symm⟩
    · exact .inr (.inl ⟨.lpat, by simp, rfl, h.symm⟩)
    · exact .inr (.inl ⟨.rpat, by simp, rfl, h.symm⟩)
    · exact .inr (.inr (.inl ⟨.lrev, by simp, rfl, h.symm⟩))
    · exact .inr (.inr (.inl ⟨.rrev, by simp, rfl, h.symm⟩))
    · exact .inr (.inr (.inl ⟨.urev, by simp, rfl, h.symm⟩))
    · exact .inl ⟨.enc, by decide, rfl, h.symm⟩
    · exact .inl ⟨.dec, by decide, rfl, h.symm⟩
    · exact .inr (.inr (.inr (.inl ⟨.bmw, by decide, rfl, h.symm⟩)))
    · exact .inr (.inr (.inr (.inl ⟨.bmr, by decide, rfl, h.symm⟩)))
  · refine .inr (.inr (.inr (.inr ⟨hop, ?_⟩)))
    simp only [opCodes, List.mem_cons, not_or] at hop
    simp only [hop, if_false] at h
    exact h.symm

/-- What a word decodes to is a command the block has, with the code and the operand that stand in the word. -/
theorem fields_of_decode {c : Config} {w : CmdWord} {i : Instr} (h : decode c w = .ok i) :
    i.wellFormed c = true ∧ opField w = i.opCode ∧ argField w = i.argBits := by
  rcases decode_cases h with
    ⟨j, hj, hop, hr⟩ | ⟨mk, hmk, hop, hr⟩ | ⟨mk, hmk, hop, hr⟩ | ⟨j, hj, hop, hr⟩ | ⟨-, hr⟩
  · obtain ⟨harg, rfl⟩ := formatN_eq_ok.1 hr.symm
    fin_cases hj <;> exact ⟨rfl, hop, harg⟩
  · obtain ⟨d, hd, harg, rfl⟩ := formatD_eq_ok.1 hr.symm
    fin_cases hmk <;> exact ⟨decide_eq_true hd, hop, harg⟩
  · obtain ⟨t, harg, rfl⟩ := formatP_eq_ok.1 hr.symm
    fin_cases hmk <;> exact ⟨rfl, hop, harg⟩
  · obtain ⟨hbmc, harg, rfl⟩ := formatBmc_eq_ok.1 hr.symm
    fin_cases hj <;> exact ⟨hbmc, hop, harg⟩
  · cases hr

/-- A word decodes exactly when it is the word of a command the block has (R94, R97). -/
theorem decode_eq_ok {c : Config} {w : CmdWord} {i : Instr} :
    decode c w = .ok i ↔ i.wellFormed c = true ∧ encode i = w := by
  constructor
  · intro h
    obtain ⟨hwf, hop, harg⟩ := fields_of_decode h
    exact ⟨hwf, by rw [encode_eq_fields, ← hop, ← harg, ← word_eq_fields]⟩
  · rintro ⟨hwf, rfl⟩
    exact decode_encode hwf

/-! ### The list of the legal words -/

/-- The operands of `LPAT` and `RPAT` (R92). -/
def digitOperands : List (BitVec 4) := (List.range 10).map (BitVec.ofNat 4)

/-- The operands of `LREV`, `RREV` and `UREV`: every value is legal (R93). -/
def patternOperands : List Pattern := (List.finRange 128).map BitVec.ofFin

theorem digitOperands_nodup : digitOperands.Nodup := by decide

theorem mem_digitOperands {d : BitVec 4} : d ∈ digitOperands ↔ d.toNat ≤ 9 := by revert d; decide

theorem patternOperands_nodup : patternOperands.Nodup :=
  (List.nodup_finRange 128).map fun _ _ h => BitVec.ofFin.inj h

theorem mem_patternOperands (t : Pattern) : t ∈ patternOperands :=
  List.mem_map.2 ⟨t.toFin, List.mem_finRange _, rfl⟩

/-- The commands of a block: 6 (or 4) of format `N`, 2·10 of format `D`, 3·128 of format `P` (R97). -/
def commands (c : Config) : List Instr :=
  (if c.hasBmc then [Instr.bmw, Instr.bmr] else []) ++ [Instr.chk, Instr.val, Instr.enc, Instr.dec] ++
  (digitOperands.map Instr.lpat ++ digitOperands.map Instr.rpat) ++
  (patternOperands.map Instr.lrev ++ patternOperands.map Instr.rrev ++ patternOperands.map Instr.urev)

theorem commands_length (c : Config) : (commands c).length = if c.hasBmc then 410 else 408 := by
  cases h : c.hasBmc <;> simp [commands, digitOperands, patternOperands, h]

/-- The list holds the commands the block has a word for. -/
theorem mem_commands {c : Config} {i : Instr} : i ∈ commands c ↔ i.wellFormed c = true := by
  cases i with
  | chk | val | enc | dec => simp [commands, Instr.wellFormed]
  | lpat d | rpat d => simp [commands, Instr.wellFormed, mem_digitOperands]
  | lrev t | rrev t | urev t => simp [commands, Instr.wellFormed, mem_patternOperands]
  | bmw | bmr => simp [commands, Instr.wellFormed]

/-- No command stands twice in the list: the operand lists have no repeats, and the commands' names differ. -/
theorem commands_nodup (c : Config) : (commands c).Nodup := by
  have hlpat : (digitOperands.map Instr.lpat).Nodup := digitOperands_nodup.map fun _ _ h => Instr.lpat.inj h
  have hrpat : (digitOperands.map Instr.rpat).Nodup := digitOperands_nodup.map fun _ _ h => Instr.rpat.inj h
  have hlrev : (patternOperands.map Instr.lrev).Nodup := patternOperands_nodup.map fun _ _ h => Instr.lrev.inj h
  have hrrev : (patternOperands.map Instr.rrev).Nodup := patternOperands_nodup.map fun _ _ h => Instr.rrev.inj h
  have hurev : (patternOperands.map Instr.urev).Nodup := patternOperands_nodup.map fun _ _ h => Instr.urev.inj h
  cases h : c.hasBmc <;> simp [commands, List.nodup_append', List.disjoint_left, *]

/-- The words of the commands of a block, one for each (R94). -/
def legalWords (c : Config) : List CmdWord := (commands c).map encode

theorem mem_legalWords {c : Config} {w : CmdWord} : w ∈ legalWords c ↔ ∃ i, decode c w = .ok i := by
  simp [legalWords, mem_commands, decode_eq_ok]

/-- No two commands share a word, since the word decodes to the command. -/
theorem legalWords_nodup (c : Config) : (legalWords c).Nodup := by
  refine List.Nodup.map_on (fun i hi j hj hij => ?_) (commands_nodup c)
  have hdec := decode_encode (mem_commands.1 hi)
  rw [hij, decode_encode (mem_commands.1 hj)] at hdec
  exact (Except.ok.inj hdec).symm

theorem legalWords_length (c : Config) : (legalWords c).length = if c.hasBmc then 410 else 408 := by
  rw [legalWords, List.length_map, commands_length]

/-! ### The refusals -/

/-- What format `N` refuses (R91). -/
theorem formatN_eq_error {arg : BitVec 8} {i : Instr} : (∃ e, formatN arg i = .error e) ↔ arg.toNat ≠ 0 := by
  unfold formatN
  split <;> simp_all [BitVec.toNat_eq]

/-- What format `D` refuses (R92). -/
theorem formatD_eq_error {arg : BitVec 8} {mk : BitVec 4 → Instr} :
    (∃ e, formatD arg mk = .error e) ↔ arg.toNat / 16 ≠ 0 ∨ arg.toNat % 16 > 9 := by
  have hhigh : arg.extractLsb' 4 4 = 0 ↔ arg.toNat / 16 = 0 := by revert arg; decide
  have hlow : (arg.extractLsb' 0 4).toNat = arg.toNat % 16 := by simp
  unfold formatD
  simp only [hlow, ne_eq, hhigh]
  split_ifs <;> simp_all

/-- What format `P` refuses (R93). -/
theorem formatP_eq_error {arg : BitVec 8} {mk : Pattern → Instr} :
    (∃ e, formatP arg mk = .error e) ↔ arg.toNat / 128 = 1 := by
  have hhigh : arg.extractLsb' 7 1 ≠ 0 ↔ arg.toNat / 128 = 1 := by revert arg; decide
  unfold formatP
  rw [← hhigh]
  split <;> simp_all

/-- What the codes of the unit `BMC` refuse (R97). -/
theorem formatBmc_eq_error {c : Config} {arg : BitVec 8} {i : Instr} :
    (∃ e, formatBmc c arg i = .error e) ↔ c.hasBmc = false ∨ arg.toNat ≠ 0 := by
  unfold formatBmc
  split <;> simp_all [formatN_eq_error]

/-- The decoder refuses the words of R97's list and no other. -/
theorem decode_eq_error {c : Config} {w : CmdWord} : (∃ e, decode c w = .error e) ↔ Claims.IllegalWord c w := by
  have hdigit : w.toNat % 16 = (argField w).toNat % 16 := by rw [argField_toNat]; omega
  rw [Claims.IllegalWord, ← opField_toNat, ← argField_toNat, hdigit]
  rcases decode_cases (c := c) (w := w) rfl with
    ⟨j, hj, hop, hr⟩ | ⟨mk, hmk, hop, hr⟩ | ⟨mk, hmk, hop, hr⟩ | ⟨j, hj, hop, hr⟩ | ⟨hop, hr⟩
  · rw [hr, formatN_eq_error, hop]
    fin_cases hj <;> simp [Instr.opCode]
  · rw [hr, formatD_eq_error, hop]
    fin_cases hmk <;> simp [Instr.opCode]
  · rw [hr, formatP_eq_error, hop]
    fin_cases hmk <;> simp [Instr.opCode]
  · rw [hr, formatBmc_eq_error, hop]
    fin_cases hj <;> simp [Instr.opCode, or_comm]
  · rw [hr]
    exact iff_of_true ⟨_, rfl⟩ (.inl (by simpa [opCodes, BitVec.toNat_eq] using hop))

end Sys2Proof

namespace Sys2Proof.Machine

open Sys2Proof.Claims

/-- A refused word raises `E_ILLEGAL` (R278). -/
theorem issue_of_error {w : CmdWord} {s : State} {e : DecodeError} (h : decode s.config w = .error e) :
    issue w s = .next (s.raise .illegal) := by
  rw [issue, h]

/-- Settles O4: the refusals are R97's list, the legal words are those of the commands, and a refusal raises code 9. -/
theorem illegalWordsAreThoseListed : Obligations.IllegalWordsAreThoseListed := by
  unfold Obligations.IllegalWordsAreThoseListed
  refine fun c => ⟨fun w => decode_eq_error,
    ⟨legalWords c, legalWords_nodup c, legalWords_length c, fun w => mem_legalWords⟩, ?_⟩
  rintro s w rfl hw
  obtain ⟨e, he⟩ := decode_eq_error.2 hw
  calc issue w s = .next (s.raise .illegal) := issue_of_error he
    _ = .next (failed s 9) := rfl

end Sys2Proof.Machine

/-! The checksum unit in the claims' arithmetic (spec/41_checksum.md): the check digit, which buffers `CHK` and `VAL`
accept, and what they then answer. -/

namespace Sys2Proof.Machine

open Sys2Proof.Claims

/-! ### The check digit -/

/-- The model's check digit of the first seven of eight digits is R121's. -/
theorem checkDigit_payload_val (D : Vector Digit 8) : (checkDigit (payload D)).val = checkSumDigit D := by
  simp [checkDigit, weightedSum, checkSumDigit]

/-- The eighth digit is the model's check digit exactly when it is R121's. -/
theorem checkDigit_payload_eq_iff {D : Vector Digit 8} :
    checkDigit (payload D) = D[7] ↔ checkSumDigit D = D[7].val := by
  rw [Fin.ext_iff, checkDigit_payload_val]

/-- The second form is 10 less the last digit, or 0 when that is 0, for every natural and not only on R122's range. -/
theorem checkDigit_forms_agree (n : Nat) : (10 - n % 10) % 10 = (n + 9) / 10 * 10 - n := by omega

/-- Settles O18: both clauses are the equality of the two forms at one number. -/
theorem checkDigitFormsAgree : Obligations.CheckDigitFormsAgree := by
  unfold Obligations.CheckDigitFormsAgree
  exact ⟨fun n _ => checkDigit_forms_agree n, fun p => checkDigit_forms_agree (weightedSum p)⟩

/-- The string of R127, a payload and one more digit, is made of the characters of the eight digits. -/
theorem digitChars_toList_eq_map (D : Vector Digit 8) :
    (digitChars D).toList = (List.range 8).map (fun i => BitVec.ofNat 8 (0x30 + ((D[i]?).getD 0).val)) := by
  refine List.ext_getElem (by simp) fun i hi _ => ?_
  have hi : i < 8 := by simpa using hi
  simp [hi, charOf, Nat.add_comm]

/-- Settles O19: a check digit is below 10, and eight digit characters are valid when the eighth is the check digit. -/
theorem payloadClosure : Obligations.PayloadClosure := by
  unfold Obligations.PayloadClosure
  intro D
  constructor
  · rw [← checkDigit_payload_val]
    exact Nat.le_of_lt_succ (checkDigit (payload D)).isLt
  · rw [← digitChars_toList_eq_map, valid_digitChars, checkDigit_payload_eq_iff, eq_comm]

/-! ### `CHK` -/

theorem notDigit_iff_digitOf_eq_none {c : Byte} : NotDigit c ↔ digitOf c = none := by
  rw [digitOf_eq_none, NotDigit]
  omega

theorem eq_charOf_iff_toNat {c : Byte} {d : Digit} : c = charOf d ↔ c.toNat = 0x30 + d.val := by
  rw [BitVec.toNat_eq, charOf_toNat, Nat.add_comm]

/-- The leading characters of `IDBUF` are digits with given values. -/
theorem leadingDigits_idbuf_eq_some {s : State} {n : Nat} (hn : n ≤ 15) {p : Vector Digit n} :
    leadingDigits s.idbuf.toList n = some p ↔ ∀ i (h : i < n), s.idbuf[i].toNat = 0x30 + p[i].val := by
  rw [leadingDigits_eq_some]
  refine forall₂_congr fun i hi => ?_
  have hi : i < 15 := by omega
  simp [hi, eq_charOf_iff_toNat]

/-- One of the leading characters of `IDBUF` is not a digit. -/
theorem leadingDigits_idbuf_eq_none {s : State} {n : Nat} (hn : n ≤ 15) :
    leadingDigits s.idbuf.toList n = none ↔ ∃ i, ∃ h : i < n, NotDigit s.idbuf[i] := by
  rw [leadingDigits_eq_none]
  refine exists_congr fun i => ?_
  rw [← exists_prop]
  refine exists_congr fun hi => ?_
  have hi : i < 15 := by omega
  simp [hi, notDigit_iff_digitOf_eq_none]

/-- `CHK` gives the check digit of seven digit characters (R123). -/
theorem chkResult_of_digits {s : State} {p : Vector Digit 7} (hlen : 7 ≤ s.idlen.toNat)
    (h : ∀ i (h : i < 7), s.idbuf[i].toNat = 0x30 + p[i].val) : chkResult s = .ok (checkDigit p) := by
  rw [chkResult, if_neg hlen.not_gt, (leadingDigits_idbuf_eq_some (by decide)).2 h]

/-- `CHK` fails on fewer than seven characters, and on a non-digit among the first seven (R123). -/
theorem chkResult_of_not_digits {s : State}
    (h : s.idlen.toNat < 7 ∨ ∃ i, ∃ h : i < 7, NotDigit s.idbuf[i]) : chkResult s = .error .invalidIdentifier := by
  by_cases hlen : s.idlen.toNat < 7
  · rw [chkResult, if_pos hlen]
  · have hnone : leadingDigits s.idbuf.toList 7 = none :=
      (leadingDigits_idbuf_eq_none (by decide)).2 (h.resolve_left hlen)
    rw [chkResult, if_neg hlen, hnone]

theorem exec_chk (s : State) :
    exec .chk s = .next (s.conclude (chkResult s) fun s d => s.setRes (resDigit d)) := rfl

/-- The successful end of `CHK` (R123, R279). -/
theorem exec_chk_of_ok {s : State} {d : Digit} (h : chkResult s = .ok d) :
    exec .chk s = .next { s with res := BitVec.ofNat 8 d.val, err := 0 } := by
  rw [exec_chk, h]
  rfl

/-- The failing end of `CHK` (R123, R280). -/
theorem exec_chk_of_error {s : State} {k : ErrorKind} (h : chkResult s = .error k) :
    exec .chk s = .next (s.raise k) := by
  rw [exec_chk, h, State.conclude_error]

/-- Settles O16: by what `CHK` computes from seven digit characters, and that it raises code 1 otherwise. -/
theorem chkAnswersTheCheckDigit : Obligations.ChkAnswersTheCheckDigit := by
  unfold Obligations.ChkAnswersTheCheckDigit
  refine ⟨fun c => decode_encode (i := .chk) rfl, fun s D hlen hD => ?_, fun s h => ?_⟩
  · have hpayload : ∀ i (h : i < 7), s.idbuf[i].toNat = 0x30 + (payload D)[i].val := fun i hi => by
      rw [payload_getElem, hD i hi]
    rw [exec_chk_of_ok (chkResult_of_digits hlen hpayload), checkDigit_payload_val]
  · exact exec_chk_of_error (chkResult_of_not_digits h)

/-! ### `VAL` -/

/-- The digits of the identifier in `IDBUF` are those the claims say it holds (R128). -/
theorem identifierDigits_identifier_eq_some {s : State} {D : Vector Digit 8} :
    identifierDigits s.identifier = some D ↔ HoldsIdentifier s D := by
  rw [identifierDigits_eq_some, State.identifier_length, checkDigit_payload_eq_iff, HoldsIdentifier]
  refine and_congr_right fun hlen => and_congr_left fun _ => forall₂_congr fun i hi => ?_
  have hin : i < 15 ∧ i < s.idlen.toNat := by omega
  rw [State.identifier_getElem?, dif_pos hin, Option.some.injEq, eq_charOf_iff_toNat]

theorem valid_identifier_eq_true {s : State} : valid s.identifier = true ↔ ∃ D, HoldsIdentifier s D := by
  simp only [valid_eq_true, identifierDigits_identifier_eq_some]

/-- `VAL` ends without an error, with its verdict in `RES` (R125, R279). -/
theorem exec_val (s : State) : exec .val s = .next { s with res := resVerdict (valid s.identifier), err := 0 } := rfl

/-- Settles O17: the verdict of `VAL` is whether there is an identifier. -/
theorem valAnswersWhetherIdentifier : Obligations.ValAnswersWhetherIdentifier := by
  unfold Obligations.ValAnswersWhetherIdentifier
  refine ⟨fun c => decode_encode (i := .val) rfl, fun s D hD => ?_, fun s hno => ?_⟩
  · have hvalid : valid s.identifier = true := valid_identifier_eq_true.2 ⟨D, hD⟩
    rw [exec_val, hvalid]
    rfl
  · have hvalid : valid s.identifier = false := Bool.eq_false_iff.2 (mt valid_identifier_eq_true.1 hno)
    rw [exec_val, hvalid]
    rfl

end Sys2Proof.Machine

/-! The symbol-table unit in the claims' arithmetic (spec/42_symbol_table.md): the words of the lookups, the tables as
numbers, what the lookups answer, and the properties of the tables. -/

namespace Sys2Proof

/-! ### The words of the lookups -/

/-- A row's `match` with an operand added is the word of the sum of the two numbers (R94, R95). -/
theorem add_setWidth_eq_ofNat {k : Nat} (m : CmdWord) (x : BitVec k) :
    m + x.setWidth 16 = BitVec.ofNat 16 (m.toNat + x.toNat) := by
  rw [BitVec.ofNat_add, BitVec.ofNat_toNat, BitVec.ofNat_toNat, BitVec.setWidth_eq]

theorem encode_lpat (d : BitVec 4) : encode (.lpat d) = BitVec.ofNat 16 (0x1000 + d.toNat) :=
  add_setWidth_eq_ofNat 0x1000 d

theorem encode_rpat (d : BitVec 4) : encode (.rpat d) = BitVec.ofNat 16 (0x1100 + d.toNat) :=
  add_setWidth_eq_ofNat 0x1100 d

theorem encode_lrev (t : Pattern) : encode (.lrev t) = BitVec.ofNat 16 (0x1200 + t.toNat) :=
  add_setWidth_eq_ofNat 0x1200 t

theorem encode_rrev (t : Pattern) : encode (.rrev t) = BitVec.ofNat 16 (0x1300 + t.toNat) :=
  add_setWidth_eq_ofNat 0x1300 t

theorem encode_urev (t : Pattern) : encode (.urev t) = BitVec.ofNat 16 (0x1400 + t.toNat) :=
  add_setWidth_eq_ofNat 0x1400 t

end Sys2Proof

namespace Sys2Proof.Machine

open Sys2Proof.Claims

/-- A word of format `D` whose digit is above 9 fails with `E_ILLEGAL` (R92, R97). -/
theorem issue_of_digit_above_nine {op : Nat} (hop : op ∈ [0x10, 0x11]) {d : BitVec 4} (hd : 9 < d.toNat) (s : State) :
    issue (BitVec.ofNat 16 (256 * op + d.toNat)) s = .next (failed s 9) := by
  have hle : op ≤ 0x11 := (by decide : ∀ n ∈ [0x10, 0x11], n ≤ 0x11) op hop
  have hw : (BitVec.ofNat 16 (256 * op + d.toNat)).toNat = 256 * op + d.toNat := by
    rw [BitVec.toNat_ofNat, Nat.mod_eq_of_lt]
    omega
  obtain ⟨hhigh, hlow⟩ : (256 * op + d.toNat) / 256 = op ∧ (256 * op + d.toNat) % 16 = d.toNat := by omega
  have hill : IllegalWord s.config (BitVec.ofNat 16 (256 * op + d.toNat)) := by
    rw [IllegalWord, hw, hhigh, hlow]
    exact .inr (.inr (.inl ⟨hop, .inr hd⟩))
  obtain ⟨e, he⟩ := decode_eq_error.2 hill
  calc issue _ s = .next (s.raise .illegal) := issue_of_error he
    _ = .next (failed s 9) := rfl

/-! ### The tables as numbers -/

/-- The patterns of a table are those of the digits. -/
theorem mem_table {tab : Vector Pattern 10} {t : Pattern} : t ∈ tab.toList ↔ ∃ d : Digit, tab[d] = t := by
  rw [Vector.mem_toList_iff, Vector.mem_iff_getElem]
  exact ⟨fun ⟨i, hi, h⟩ => ⟨⟨i, hi⟩, h⟩, fun ⟨d, h⟩ => ⟨d.val, d.isLt, h⟩⟩

/-- The numbers of a table stand in the order of the digits. -/
theorem table_number_eq_some {tab : Vector Pattern 10} {n m : Nat} :
    (tab.toList.map BitVec.toNat)[n]? = some m ↔ ∃ d : Digit, d.val = n ∧ tab[d].toNat = m := by
  constructor
  · intro h
    obtain ⟨hn, hm⟩ := List.getElem?_eq_some_iff.1 h
    exact ⟨⟨n, by simpa using hn⟩, rfl, by simpa using hm⟩
  · rintro ⟨d, rfl, rfl⟩
    simp

/-- The claims' left numbers are the model's left table (R141). -/
theorem leftNumbers_eq : leftNumbers = ltab.toList.map BitVec.toNat := by decide

/-- The claims' right numbers are the model's right table (R141). -/
theorem rightNumbers_eq : rightNumbers = rtab.toList.map BitVec.toNat := by decide

/-- Each right pattern is the complement of the left one (R142 item 1). -/
theorem rtab_toNat (d : Digit) : rtab[d].toNat = 127 - ltab[d].toNat := by revert d; decide

/-- Left patterns start with 0 and end with 1 (R142 item 3). -/
theorem ltab_odd_low (d : Digit) : ltab[d].toNat % 2 = 1 ∧ ltab[d].toNat < 64 := by revert d; decide

/-- Right patterns start with 1 and end with 0, being complements of left ones (R142 item 3). -/
theorem rtab_even_high (d : Digit) : rtab[d].toNat % 2 = 0 ∧ 64 ≤ rtab[d].toNat := by
  have hl := ltab_odd_low d
  rw [rtab_toNat]
  omega

/-- The two tables share no pattern, by the first module (R142 item 2). -/
theorem ltab_ne_rtab (d e : Digit) : ltab[d] ≠ rtab[e] := by
  intro h
  have hlow := (ltab_odd_low d).2
  rw [h] at hlow
  exact hlow.not_ge (rtab_even_high e).2

/-! ### `LPAT` and `RPAT` -/

theorem digitOperand_of_val {d : BitVec 4} {e : Digit} (h : e.val = d.toNat) : digitOperand d = .ok e := by
  have hd : d.toNat < 10 := h ▸ e.isLt
  rw [digitOperand, dif_pos hd]
  exact congrArg _ (Fin.ext h.symm)

theorem exec_lpat (d : BitVec 4) (s : State) :
    exec (.lpat d) s = .next (s.conclude (digitOperand d) fun s d => s.setRes (resPattern ltab[d])) := rfl

/-- `LPAT` of a digit puts the number of its left pattern in `RES` (R143). -/
theorem exec_lpat_of_digit {d : BitVec 4} {e : Digit} (h : e.val = d.toNat) (s : State) :
    exec (.lpat d) s = .next { s with res := BitVec.ofNat 8 ltab[e].toNat, err := 0 } := by
  rw [exec_lpat, digitOperand_of_val h, State.conclude_ok, BitVec.ofNat_toNat]
  rfl

theorem exec_rpat (d : BitVec 4) (s : State) :
    exec (.rpat d) s = .next (s.conclude (digitOperand d) fun s d => s.setRes (resPattern rtab[d])) := rfl

/-- `RPAT` of a digit puts the number of its right pattern in `RES` (R144). -/
theorem exec_rpat_of_digit {d : BitVec 4} {e : Digit} (h : e.val = d.toNat) (s : State) :
    exec (.rpat d) s = .next { s with res := BitVec.ofNat 8 rtab[e].toNat, err := 0 } := by
  rw [exec_rpat, digitOperand_of_val h, State.conclude_ok, BitVec.ofNat_toNat]
  rfl

/-- Settles O21: the words are the encoder's, the answers are the tables' patterns, and a digit above 9 is illegal. -/
theorem patternLookupsReadTheTables : Obligations.PatternLookupsReadTheTables := by
  unfold Obligations.PatternLookupsReadTheTables
  intro d
  refine ⟨fun hd => ⟨fun c => ⟨?_, ?_⟩, fun s l r hl hr => ⟨?_, ?_⟩⟩, fun hd s => ⟨?_, ?_⟩⟩
  · rw [← encode_lpat]
    exact decode_encode (decide_eq_true hd)
  · rw [← encode_rpat]
    exact decode_encode (decide_eq_true hd)
  · rw [leftNumbers_eq, table_number_eq_some] at hl
    obtain ⟨e, he, rfl⟩ := hl
    exact exec_lpat_of_digit he s
  · rw [rightNumbers_eq, table_number_eq_some] at hr
    obtain ⟨e, he, rfl⟩ := hr
    exact exec_rpat_of_digit he s
  · exact issue_of_digit_above_nine (op := 0x10) (by decide) hd s
  · exact issue_of_digit_above_nine (op := 0x11) (by decide) hd s

/-! ### `LREV`, `RREV` and `UREV` -/

theorem lrev_of_number {t : Pattern} {n : Nat} (h : leftNumbers[n]? = some t.toNat) :
    ∃ d : Digit, d.val = n ∧ lrev t = some d := by
  rw [leftNumbers_eq, table_number_eq_some] at h
  obtain ⟨d, hd, ht⟩ := h
  exact ⟨d, hd, lrev_eq_some.2 (BitVec.toNat_inj.1 ht)⟩

theorem rrev_of_number {t : Pattern} {n : Nat} (h : rightNumbers[n]? = some t.toNat) :
    ∃ d : Digit, d.val = n ∧ rrev t = some d := by
  rw [rightNumbers_eq, table_number_eq_some] at h
  obtain ⟨d, hd, ht⟩ := h
  exact ⟨d, hd, rrev_eq_some.2 (BitVec.toNat_inj.1 ht)⟩

/-- A lookup answers none when no number of the table is the pattern's (R145). -/
theorem lookup_of_not_mem {tab : Vector Pattern 10} {t : Pattern} (h : t.toNat ∉ tab.toList.map BitVec.toNat) :
    lookup tab t = none :=
  lookup_eq_none.2 fun d hd => h (List.mem_map_of_mem (mem_table.2 ⟨d, hd⟩))

theorem lrev_of_not_mem {t : Pattern} (h : t.toNat ∉ leftNumbers) : lrev t = none :=
  lookup_of_not_mem (leftNumbers_eq ▸ h)

theorem rrev_of_not_mem {t : Pattern} (h : t.toNat ∉ rightNumbers) : rrev t = none :=
  lookup_of_not_mem (rightNumbers_eq ▸ h)

theorem urev_of_lrev {t : Pattern} {d : Digit} (h : lrev t = some d) : urev t = some d := by
  rw [urev, h, Option.some_or]

/-- The left table is searched first, but it holds no right pattern (R145). -/
theorem urev_of_rrev {t : Pattern} {d : Digit} (h : rrev t = some d) : urev t = some d := by
  have hl : lrev t = none := lookup_eq_none.2 fun e he => ltab_ne_rtab e d (he.trans (rrev_eq_some.1 h).symm)
  rw [urev, hl, h, Option.none_or]

theorem resFound_some (d : Digit) : resFound (some d) = BitVec.ofNat 8 (0x80 + d.val) := by
  rw [BitVec.ofNat_add]
  rfl

theorem exec_lrev (t : Pattern) (s : State) :
    exec (.lrev t) s = .next { s with res := resFound (lrev t), err := 0 } := rfl

theorem exec_rrev (t : Pattern) (s : State) :
    exec (.rrev t) s = .next { s with res := resFound (rrev t), err := 0 } := rfl

theorem exec_urev (t : Pattern) (s : State) :
    exec (.urev t) s = .next { s with res := resFound (urev t), err := 0 } := rfl

/-- Settles O22: the words are the encoder's, and a pattern is found in the table that holds its number, in no other. -/
theorem reverseLookupsFindTheDigit : Obligations.ReverseLookupsFindTheDigit := by
  unfold Obligations.ReverseLookupsFindTheDigit
  intro t s
  refine ⟨fun c => ?_, fun n h => ?_, fun n h => ?_, fun h => ?_, fun h => ?_, fun hl hr => ?_⟩
  · rw [← encode_lrev, ← encode_rrev, ← encode_urev]
    exact ⟨decode_encode rfl, decode_encode rfl, decode_encode rfl⟩
  · obtain ⟨d, rfl, hd⟩ := lrev_of_number h
    rw [exec_lrev, exec_urev, hd, urev_of_lrev hd, resFound_some]
    exact ⟨rfl, rfl⟩
  · obtain ⟨d, rfl, hd⟩ := rrev_of_number h
    rw [exec_rrev, exec_urev, hd, urev_of_rrev hd, resFound_some]
    exact ⟨rfl, rfl⟩
  · rw [exec_lrev, lrev_of_not_mem h]
    rfl
  · rw [exec_rrev, rrev_of_not_mem h]
    rfl
  · rw [exec_urev, urev, lrev_of_not_mem hl, rrev_of_not_mem hr]
    rfl

/-! ### The properties of the tables -/

/-- A table in which no two digits share a pattern has no pattern twice. -/
theorem table_nodup {tab : Vector Pattern 10} (h : ∀ d e : Digit, tab[d] = tab[e] → d = e) : tab.toList.Nodup := by
  refine List.nodup_iff_injective_get.2 fun i j hij => ?_
  have hi : i.val < 10 := by simpa using i.isLt
  have hj : j.val < 10 := by simpa using j.isLt
  have hd := h ⟨i, hi⟩ ⟨j, hj⟩ (by simpa using hij)
  exact Fin.ext (Fin.mk.inj hd)

/-- The twenty patterns are pairwise distinct (R142 item 2). -/
theorem tables_nodup : (ltab.toList ++ rtab.toList).Nodup := by
  refine List.nodup_append'.2
    ⟨table_nodup fun _ _ => ltab_injective, table_nodup fun _ _ => rtab_injective, fun t hl hr => ?_⟩
  obtain ⟨d, hd⟩ := mem_table.1 hl
  obtain ⟨e, he⟩ := mem_table.1 hr
  exact ltab_ne_rtab d e (hd.trans he.symm)

/-- A number of seven bits and its complement have seven set bits between them. -/
theorem onesIn_complement {n : Nat} (h : n < 128) : onesIn (127 - n) = 7 - onesIn n := by
  revert n; decide

theorem onesIn_ltab (d : Digit) : onesIn ltab[d].toNat = 3 ∨ onesIn ltab[d].toNat = 5 := by revert d; decide

/-- The counts of the right patterns, from those of their complements (R142 item 4). -/
theorem onesIn_rtab (d : Digit) : onesIn rtab[d].toNat = 2 ∨ onesIn rtab[d].toNat = 4 := by
  rw [rtab_toNat, onesIn_complement ltab[d].isLt]
  have hl := onesIn_ltab d
  omega

/-- Any two of the twenty patterns differ in at least two modules (R142 item 5). -/
theorem two_le_distance : ∀ t ∈ ltab.toList ++ rtab.toList, ∀ u ∈ ltab.toList ++ rtab.toList, t ≠ u →
    2 ≤ onesIn (t ^^^ u).toNat := by decide

/-- The patterns of the digits 0 and 1 are at distance 2 in either table (R142 item 5). -/
theorem distance_zero_one : onesIn (ltab[0] ^^^ ltab[1]).toNat = 2 ∧ onesIn (rtab[0] ^^^ rtab[1]).toNat = 2 := by
  decide

/-- Ten patterns are in the left table (R142 item 6). -/
theorem lrev_count : ((List.range 128).filter (fun n => (lrev (BitVec.ofNat 7 n)).isSome)).length = 10 := by decide

/-- Ten patterns are in the right table (R142 item 6). -/
theorem rrev_count : ((List.range 128).filter (fun n => (rrev (BitVec.ofNat 7 n)).isSome)).length = 10 := by decide

/-- The other 108 patterns are in neither (R142 item 6). -/
theorem urev_count : ((List.range 128).filter (fun n => (urev (BitVec.ofNat 7 n)).isNone)).length = 108 := by decide

/-- Settles O23: the six items of R142 in turn. -/
theorem symbolTableProperties : Obligations.SymbolTableProperties := by
  unfold Obligations.SymbolTableProperties
  refine ⟨rtab_toNat, tables_nodup, fun d => ?_, fun d => ⟨onesIn_ltab d, onesIn_rtab d⟩,
    ⟨two_le_distance, ?_, ?_⟩, lrev_count, rrev_count, urev_count⟩
  · obtain ⟨hodd, hlow⟩ := ltab_odd_low d
    exact ⟨hodd, hlow, rtab_even_high d⟩
  · obtain ⟨hleft, -⟩ := distance_zero_one
    exact ⟨ltab[0], mem_table.2 ⟨0, rfl⟩, ltab[1], mem_table.2 ⟨1, rfl⟩, hleft⟩
  · obtain ⟨-, hright⟩ := distance_zero_one
    exact ⟨rtab[0], mem_table.2 ⟨0, rfl⟩, rtab[1], mem_table.2 ⟨1, rfl⟩, hright⟩

end Sys2Proof.Machine

/-! The encoder unit in the claims' arithmetic (spec/43_encoder.md): the modules of a symbol in order, the matrix `ENC`
draws pixel by pixel, and the errors of `ENC`. -/

namespace Sys2Proof.Machine

open Sys2Proof.Claims

/-! ### The modules of a symbol -/

/-- Bit `i` of a word, by division. -/
theorem ofNat_one_div_pow {w : Nat} (t : BitVec w) (i : Nat) :
    BitVec.ofNat 1 (t.toNat / 2 ^ i) = BitVec.ofBool (t.getLsbD i) := by
  apply BitVec.eq_of_toNat_eq
  rw [BitVec.toNat_ofNat, BitVec.toNat_ofBool, BitVec.getLsbD, Nat.toNat_testBit, Nat.pow_one]

/-- The claims' modules of a pattern are the model's elements, in order (R140). -/
theorem patternModules_toNat (t : Pattern) : patternModules t.toNat = (List.range 7).map (element t) := by
  have hrev : ([6, 5, 4, 3, 2, 1, 0] : List Nat) = (List.range 7).map (6 - ·) := rfl
  rw [patternModules, hrev, List.map_map]
  refine List.map_congr_left fun k hk => ?_
  rw [element_eq t (List.mem_range.1 hk)]
  exact ofNat_one_div_pow t (6 - k)

/-- The claims' pattern number of a digit in a group is that of the model's pattern (R207). -/
theorem groupNumber_eq (g : Nat) (d : Digit) : groupNumber g d = (groupPattern g d).toNat := by
  unfold groupNumber groupPattern
  split
  · rw [leftNumbers_eq, table_number_eq_some.2 ⟨d, rfl, rfl⟩, Option.getD_some]
  · rw [rightNumbers_eq, table_number_eq_some.2 ⟨d, rfl, rfl⟩, Option.getD_some]

/-- The module bits of `n` positions from `start`, left to right. -/
def moduleRun (l : Layout) (D : Vector Digit 8) (start n : Nat) : List Bit :=
  (List.range' start n).map (moduleBit l D)

theorem moduleRun_append (l : Layout) (D : Vector Digit 8) (start m n : Nat) :
    moduleRun l D start m ++ moduleRun l D (start + m) n = moduleRun l D start (m + n) := by
  rw [moduleRun, moduleRun, moduleRun, ← List.map_append, List.range'_append_1]

/-- The first `m` modules of a symbol, carried on by the next `n`. -/
theorem moduleRun_zero_append (l : Layout) (D : Vector Digit 8) (m n : Nat) :
    moduleRun l D 0 m ++ moduleRun l D m n = moduleRun l D 0 (m + n) := by
  rw [← moduleRun_append, Nat.zero_add]

/-- Seven positions that show the elements of a group's pattern are the modules of that group. -/
theorem patternModules_eq_moduleRun {l : Layout} {D : Vector Digit 8} {start g : Nat} {d : Digit}
    (h : ∀ k, k < 7 → moduleBit l D (start + k) = element (groupPattern g d) k) :
    patternModules (groupNumber g d) = moduleRun l D start 7 := by
  rw [groupNumber_eq, patternModules_toNat, moduleRun, List.range'_eq_map_range, List.map_map]
  exact List.map_congr_left fun k hk => (h k (List.mem_range.1 hk)).symm

/-- The modules of a left group (R179). -/
theorem patternModules_left (l : Layout) (D : Vector Digit 8) {g : Nat} (hg : g < 4) :
    patternModules (groupNumber g D[g]) = moduleRun l D (3 + 7 * g) 7 := by
  refine patternModules_eq_moduleRun fun k hk => ?_
  rw [moduleBit_left l D hg hk, groupPattern, if_pos hg]

/-- The modules of a right group (R179). -/
theorem patternModules_right (l : Layout) (D : Vector Digit 8) {g : Nat} (hg : 4 ≤ g) (hg' : g < 8) :
    patternModules (groupNumber g D[g]) = moduleRun l D (rightStart l + 7 * (g - 4)) 7 := by
  refine patternModules_eq_moduleRun fun k hk => ?_
  rw [moduleBit_right l D hg hg' hk, groupPattern, if_neg hg.not_gt]

/-- The four left groups stand side by side (R179). -/
theorem leftGroups_eq_moduleRun (l : Layout) (D : Vector Digit 8) :
    patternModules (groupNumber 0 D[0]) ++ patternModules (groupNumber 1 D[1]) ++
      patternModules (groupNumber 2 D[2]) ++ patternModules (groupNumber 3 D[3]) = moduleRun l D 3 28 := by
  rw [patternModules_left l D (g := 0) (by decide), patternModules_left l D (g := 1) (by decide),
    patternModules_left l D (g := 2) (by decide), patternModules_left l D (g := 3) (by decide)]
  simp only [Nat.reduceMul, Nat.reduceAdd]
  rw [moduleRun_append l D 3 7 7, moduleRun_append l D 3 14 7, moduleRun_append l D 3 21 7]

/-- The four right groups stand side by side (R179). -/
theorem rightGroups_eq_moduleRun (l : Layout) (D : Vector Digit 8) :
    patternModules (groupNumber 4 D[4]) ++ patternModules (groupNumber 5 D[5]) ++
      patternModules (groupNumber 6 D[6]) ++ patternModules (groupNumber 7 D[7]) =
        moduleRun l D (rightStart l) 28 := by
  rw [patternModules_right l D (g := 4) (by decide) (by decide),
    patternModules_right l D (g := 5) (by decide) (by decide),
    patternModules_right l D (g := 6) (by decide) (by decide),
    patternModules_right l D (g := 7) (by decide) (by decide)]
  simp only [Nat.reduceSub, Nat.reduceMul, Nat.add_zero]
  rw [moduleRun_append l D _ 7 7, moduleRun_append l D _ 14 7, moduleRun_append l D _ 21 7]

/-- The guards of each layout are the module bits at their positions, with the groups of digits between them (R179). -/
theorem symbolModules_eq_guards (l : Layout) (D : Vector Digit 8) :
    symbolModules l D =
      moduleRun l D 0 3 ++
      (patternModules (groupNumber 0 D[0]) ++ patternModules (groupNumber 1 D[1]) ++
        patternModules (groupNumber 2 D[2]) ++ patternModules (groupNumber 3 D[3])) ++
      moduleRun l D 31 (centreWidth l) ++
      (patternModules (groupNumber 4 D[4]) ++ patternModules (groupNumber 5 D[5]) ++
        patternModules (groupNumber 6 D[6]) ++ patternModules (groupNumber 7 D[7])) ++
      moduleRun l D (endStart l) (endWidth l) := by
  cases l <;> rfl

/-- The symbol written out region by region (R179) is the model's module bits from position 0 to `TOTAL` (R172). -/
theorem symbolModules_eq_moduleRun (l : Layout) (D : Vector Digit 8) :
    symbolModules l D = moduleRun l D 0 (totalModules l) := by
  have hleft : moduleRun l D 0 3 ++ moduleRun l D 3 28 = moduleRun l D 0 31 := moduleRun_zero_append l D 3 28
  have hcentre : moduleRun l D 0 31 ++ moduleRun l D 31 (centreWidth l) = moduleRun l D 0 (rightStart l) :=
    moduleRun_zero_append l D 31 (centreWidth l)
  have hright : moduleRun l D 0 (rightStart l) ++ moduleRun l D (rightStart l) 28 = moduleRun l D 0 (endStart l) :=
    moduleRun_zero_append l D (rightStart l) 28
  have hend : moduleRun l D 0 (endStart l) ++ moduleRun l D (endStart l) (endWidth l) =
      moduleRun l D 0 (totalModules l) := moduleRun_zero_append l D (endStart l) (endWidth l)
  rw [symbolModules_eq_guards, leftGroups_eq_moduleRun, rightGroups_eq_moduleRun, hleft, hcentre, hright, hend]

/-- The module at each position of the symbol (R172, R179). -/
theorem symbolModules_getElem? (l : Layout) (D : Vector Digit 8) {p : Nat} (hp : p < totalModules l) :
    (symbolModules l D)[p]? = some (moduleBit l D p) := by
  rw [symbolModules_eq_moduleRun, moduleRun]
  simp [hp]

/-! ### The matrix `ENC` draws -/

/-- `W` of the claims is the model's (R175). -/
theorem drawnWidth_eq (s : State) : drawnWidth s = s.drawWidth := by
  have htotal : total s.config.layout = totalModules s.config.layout := by cases s.config.layout <;> rfl
  rw [drawnWidth, htotal]
  rfl

/-- `H` of the claims is the model's (R175). -/
theorem drawnHeight_eq (s : State) : drawnHeight s = s.drawHeight := rfl

/-- A matrix has at least one column when a module has (R175). -/
theorem State.drawWidth_pos {s : State} (h : s.modw ≠ 0) : 0 < s.drawWidth := by
  obtain ⟨hstart, -, hend, htotal, -⟩ := layout_bounds s.config.layout
  have hmodules : 0 < totalModules s.config.layout := by omega
  exact Nat.add_pos_left (Nat.mul_pos hmodules (BitVec.toNat_pos_of_ne_zero h)) _

/-- A matrix has at least one row when a bar has (R175). -/
theorem State.drawHeight_pos {s : State} (h : s.barh ≠ 0) : 0 < s.drawHeight :=
  Nat.add_pos_left (BitVec.toNat_pos_of_ne_zero h) _

/-- The cells of a drawn matrix, once it is in `PIX` (R61, R177). -/
theorem State.setMatrix_drawing_pixAt (s : State) (D : Vector Digit 8) {x y : Nat} (hx : x < s.drawWidth)
    (hy : y < s.drawHeight) :
    (s.setMatrix (s.drawing D)).pixAt (y * s.drawWidth + x) =
      pixel s.config.layout D s.modw.toNat s.margin.toNat s.drawWidth s.drawHeight x y := by
  obtain ⟨hlt, hcell⟩ := List.getElem?_eq_some_iff.1 (s.drawing_cell D hx hy)
  rw [State.setMatrix_pixAt, dif_pos hlt, hcell]

/-- Cells beyond a drawn matrix keep what they held (R328). -/
theorem State.setMatrix_drawing_pixAt_beyond (s : State) (D : Vector Digit 8) {a : Nat}
    (ha : s.drawWidth * s.drawHeight ≤ a) : (s.setMatrix (s.drawing D)).pixAt a = s.pixAt a := by
  have hbeyond : ¬ a < (s.drawing D).cells.length := by
    rw [State.drawing_cells_length, Nat.mul_comm]
    exact ha.not_gt
  rw [State.setMatrix_pixAt, dif_neg hbeyond]

/-- A pixel inside the margins is a module of the symbol: the column gives the position (R177). -/
theorem symbolModules_of_column {l : Layout} (D : Vector Digit 8) {mw m H x y : Nat} (hy : m ≤ y) (hy' : y < H - m)
    (hx : m ≤ x) (hx' : x < symbolWidth l mw m - m) :
    (symbolModules l D)[(x - m) / mw]? = some (pixel l D mw m (symbolWidth l mw m) H x y) := by
  have hbar : ¬ (y < m ∨ y ≥ H - m ∨ x < m ∨ x ≥ symbolWidth l mw m - m) := by omega
  have hcol : x - m < totalModules l * mw := by
    unfold symbolWidth at hx'
    omega
  have hp : (x - m) / mw < totalModules l := Nat.div_lt_of_lt_mul (Nat.mul_comm _ mw ▸ hcol)
  rw [pixel, if_neg hbar, symbolModules_getElem? l D hp]

/-! ### The command -/

theorem exec_enc (s : State) : exec .enc s = .next (s.conclude (encResult s) State.setMatrix) := rfl

/-- The successful end of `ENC` (R171, R279). -/
theorem exec_enc_of_ready {s : State} {D : Vector Digit 8} (hD : HoldsIdentifier s D) (h : DrawReady s) :
    exec .enc s = .next (s.setMatrix (s.drawing D)).done := by
  obtain ⟨hmodw, hbarh, hcap⟩ := h
  rw [drawnWidth_eq, drawnHeight_eq] at hcap
  have hok : encResult s = .ok (s.drawing D) :=
    encResult_eq_ok.2 ⟨D, identifierDigits_identifier_eq_some.2 hD, hmodw, hbarh, hcap, rfl⟩
  rw [exec_enc, hok, State.conclude_ok]

/-- Settles O25: the committed matrix is read cell by cell, in the margin band, in the symbol and beyond. -/
theorem encDrawsTheSymbol : Obligations.EncDrawsTheSymbol := by
  unfold Obligations.EncDrawsTheSymbol
  intro s D hD hready
  have ⟨hmodw, hbarh, _⟩ := hready
  obtain ⟨hwfits, hhfits⟩ := s.draw_fits
  rw [drawnWidth_eq, drawnHeight_eq]
  refine ⟨s.drawWidth_pos hmodw, s.drawHeight_pos hbarh, _, exec_enc_of_ready hD hready,
    Nat.mod_eq_of_lt hwfits, Nat.mod_eq_of_lt hhfits, fun x y hx hy => ?_, fun a ha => ?_, rfl⟩
  · rw [State.done_pixAt, State.setMatrix_drawing_pixAt s D hx hy]
    exact ⟨fun hmargin => if_pos hmargin, fun hy hy' hx hx' => symbolModules_of_column D hy hy' hx hx'⟩
  · rw [State.done_pixAt, State.setMatrix_drawing_pixAt_beyond s D ha]

/-- The failing end of `ENC` (R280). -/
theorem exec_enc_of_error {s : State} {k : ErrorKind} (h : encResult s = .error k) :
    exec .enc s = .next (failed s k.code) := by
  rw [exec_enc, h, State.conclude_error]
  rfl

/-- No identifier is the first error of `ENC` (R173). -/
theorem encResult_of_no_identifier {s : State} (h : ¬ ∃ D, HoldsIdentifier s D) :
    encResult s = .error .invalidIdentifier := by
  have hnone : identifierDigits s.identifier = none :=
    Option.eq_none_iff_forall_ne_some.2 fun D hD => h ⟨D, identifierDigits_identifier_eq_some.1 hD⟩
  rw [encResult, hnone]

/-- With an identifier, `ENC` goes on to the geometry check and the capacity check (R174, R176). -/
theorem encResult_of_identifier {s : State} {D : Vector Digit 8} (hD : HoldsIdentifier s D) :
    encResult s =
      if s.modw = 0 ∨ s.barh = 0 then .error .geometry
      else if s.drawWidth * s.drawHeight > s.config.pixCap.val then .error .capacity
      else .ok (s.drawing D) := by
  rw [encResult, identifierDigits_identifier_eq_some.2 hD]

/-- Settles O26: by the first check of `ENC` that fails. -/
theorem encErrorsInOrder : Obligations.EncErrorsInOrder := by
  unfold Obligations.EncErrorsInOrder
  refine fun s => ⟨fun hno => ?_, fun D hD hzero => ?_, fun D hD hmodw hbarh hcap => ?_⟩
  · exact exec_enc_of_error (encResult_of_no_identifier hno)
  · have hgeometry : encResult s = .error .geometry := by rw [encResult_of_identifier hD, if_pos hzero]
    exact exec_enc_of_error hgeometry
  · rw [drawnWidth_eq, drawnHeight_eq] at hcap
    have hcapacity : encResult s = .error .capacity := by
      rw [encResult_of_identifier hD, if_neg (not_or.2 ⟨hmodw, hbarh⟩), if_pos hcap]
    exact exec_enc_of_error hcapacity

end Sys2Proof.Machine

/-! The decoder unit in the claims' arithmetic (spec/44_decoder.md): the errors of `DEC` in order, the pixels it reads,
and what it makes of a matrix that `ENC` drew. -/

namespace Sys2Proof.Machine

open Sys2Proof.Claims

/-! ### The digit groups -/

/-- The claims' first position of a group is the model's (R207). -/
theorem firstPosition_eq_groupBase (l : Layout) (g : Nat) : firstPosition l g = groupBase l g := by
  cases l <;> rfl

/-- The claims' group that shows a digit is the model's group that gives it (R207). -/
theorem groupShows_iff {s : State} {g : Nat} {d : Digit} : GroupShows s g d ↔ groupDigit s g = .ok d := by
  rw [groupDigit_eq_ok, GroupShows, groupNumber_eq, patternModules_toNat, firstPosition_eq_groupBase]
  refine forall₂_congr fun k hk => and_congr_right fun _ => ?_
  rw [List.getElem?_map, List.getElem?_range hk, Option.map_some, Option.some.injEq, eq_comm]
  rfl

/-- A group fails on the bounds when one of its seven runs leaves the row (R206). -/
theorem groupDigit_of_run_outside {s : State} {g k : Nat} (hk : k < 7)
    (h : ¬ RunFits s (firstPosition s.config.layout g + k)) : groupDigit s g = .error .malformedBarcode := by
  rw [firstPosition_eq_groupBase] at h
  rw [groupDigit, gather_eq_error.2 ⟨rfl, k, hk, h⟩]

/-- A group fails on the lookup when its runs fit and it shows no digit (R207, R208). -/
theorem groupDigit_of_no_digit {s : State} {g : Nat}
    (hfit : ∀ k, k < 7 → RunFits s (firstPosition s.config.layout g + k)) (hno : ¬ ∃ d, GroupShows s g d) :
    groupDigit s g = .error .unrecognizedPattern := by
  rw [firstPosition_eq_groupBase] at hfit
  cases hgather : gather s (groupBase s.config.layout g) 7 with
  | error e =>
    obtain ⟨-, k, hk, hout⟩ := gather_eq_error.1 hgather
    exact absurd (hfit k hk) hout
  | ok t =>
    cases hlookup : groupLookup g t with
    | none => rw [groupDigit, hgather]; simp only [hlookup]
    | some d =>
      have hdigit : groupDigit s g = .ok d := by rw [groupDigit, hgather]; simp only [hlookup]
      exact absurd ⟨d, groupShows_iff.2 hdigit⟩ hno

/-! ### The ends of `DEC` -/

theorem exec_dec (s : State) :
    exec .dec s = .next (s.conclude (decResult s) fun s d => s.setOutid (digitChars d)) := rfl

/-- The failing end of `DEC` (R280). -/
theorem exec_dec_of_error {s : State} {k : ErrorKind} (h : decResult s = .error k) :
    exec .dec s = .next (failed s k.code) := by
  rw [exec_dec, h, State.conclude_error]
  rfl

/-- The successful end of `DEC` (R211, R279). -/
theorem exec_dec_of_ok {s : State} {D : Vector Digit 8} (h : decResult s = .ok D) :
    exec .dec s = .next { s with outid := digitChars D, err := 0 } := by
  rw [exec_dec, h]
  rfl

/-- With the preconditions met, `DEC` goes on to the walk and the check digit (R204, R210). -/
theorem decResult_of_ready {s : State} (h : DecodeReady s) :
    decResult s = (walk s 8).bind fun D =>
      if checkDigit (payload D) ≠ D[7] then .error .checksumMismatch else .ok D := by
  obtain ⟨hmodw, hpixw, hpixh, hcap, hband⟩ := h
  rw [decResult, if_neg hmodw, if_neg (not_or.2 ⟨hpixw, hpixh⟩), if_neg hcap.not_gt, if_neg hband.not_ge]
  cases walk s 8 <;> rfl

/-- `DEC` fails as the first group fails that shows no digit (R208). -/
theorem exec_dec_of_group_error {s : State} {g : Nat} {k : ErrorKind} (hready : DecodeReady s) (hg : g < 8)
    (hbefore : ∀ g', g' < g → ∃ d, GroupShows s g' d) (h : groupDigit s g = .error k) :
    exec .dec s = .next (failed s k.code) := by
  have hwalk : walk s 8 = .error k :=
    walk_eq_error.2 ⟨g, hg, h, fun g' hg' => (hbefore g' hg').imp fun _ => groupShows_iff.1⟩
  have herror : decResult s = .error k := by
    rw [decResult_of_ready hready, hwalk]
    rfl
  exact exec_dec_of_error herror

/-- With eight digits shown, the outcome of `DEC` depends on the check digit alone (R210). -/
theorem decResult_of_shows {s : State} {D : Vector Digit 8} (hready : DecodeReady s)
    (hshows : ∀ g (h : g < 8), GroupShows s g D[g]) :
    decResult s = if checkSumDigit D ≠ D[7].val then .error .checksumMismatch else .ok D := by
  have hwalk : walk s 8 = .ok D := walk_eq_ok.2 fun g hg => groupShows_iff.1 (hshows g hg)
  rw [decResult_of_ready hready, hwalk]
  simp only [Except.bind, ne_eq, checkDigit_payload_eq_iff]

/-- Eight digits shown, the last the check digit of the others, are what `DEC` writes to `OUTID` (R211). -/
theorem exec_dec_of_shows {s : State} {D : Vector Digit 8} (hready : DecodeReady s)
    (hshows : ∀ g (h : g < 8), GroupShows s g D[g]) (hcheck : checkSumDigit D = D[7].val) :
    exec .dec s = .next { s with outid := digitChars D, err := 0 } := by
  have hok : decResult s = .ok D := by rw [decResult_of_shows hready hshows, if_neg (not_not_intro hcheck)]
  exact exec_dec_of_ok hok

/-- Settles O28: by the first precondition that fails. -/
theorem decPreconditionsInOrder : Obligations.DecPreconditionsInOrder := by
  unfold Obligations.DecPreconditionsInOrder
  refine fun s => ⟨fun hmodw => ?_, fun hmodw hzero => ?_, fun hmodw hpixw hpixh hcap => ?_,
    fun hmodw hpixw hpixh hcap hband => ?_⟩
  · have hgeometry : decResult s = .error .geometry := by rw [decResult, if_pos hmodw]
    exact exec_dec_of_error hgeometry
  · have hempty : decResult s = .error .malformedBarcode := by rw [decResult, if_neg hmodw, if_pos hzero]
    exact exec_dec_of_error hempty
  · have hcapacity : decResult s = .error .capacity := by
      rw [decResult, if_neg hmodw, if_neg (not_or.2 ⟨hpixw, hpixh⟩), if_pos hcap]
    exact exec_dec_of_error hcapacity
  · have hnoband : decResult s = .error .malformedBarcode := by
      rw [decResult, if_neg hmodw, if_neg (not_or.2 ⟨hpixw, hpixh⟩), if_neg hcap.not_gt, if_pos hband]
    exact exec_dec_of_error hnoband

/-- Settles O29: the walk ends at the group that fails, on the bounds or on the lookup; after it the check digit. -/
theorem decWalkStopsAtTheFirstError : Obligations.DecWalkStopsAtTheFirstError := by
  unfold Obligations.DecWalkStopsAtTheFirstError
  refine fun s hready => ⟨fun g k hg hbefore hk hout => ?_, fun g hg hbefore hfit hno => ?_, fun D hshows hwrong => ?_⟩
  · exact exec_dec_of_group_error hready hg hbefore (groupDigit_of_run_outside hk hout)
  · exact exec_dec_of_group_error hready hg hbefore (groupDigit_of_no_digit hfit hno)
  · have hmismatch : decResult s = .error .checksumMismatch := by
      rw [decResult_of_shows hready hshows, if_pos hwrong]
    exact exec_dec_of_error hmismatch

/-! ### What `DEC` reads -/

/-- Two states agree on the registers that `DEC` reads, and on the configuration (R43). -/
structure SameGeometry (s u : State) : Prop where
  config : s.config = u.config
  modw : s.modw = u.modw
  margin : s.margin = u.margin
  pixw : s.pixw = u.pixw
  pixh : s.pixh = u.pixh

theorem SameGeometry.sampleAddress_eq {s u : State} (h : SameGeometry s u) (p : Nat) :
    sampleAddress s p = sampleAddress u p := by
  rw [sampleAddress, sampleAddress, scanRow, scanRow, h.modw, h.margin, h.pixw, h.pixh]

theorem SameGeometry.runFits_iff {s u : State} (h : SameGeometry s u) (p : Nat) : RunFits s p ↔ RunFits u p := by
  rw [RunFits, RunFits, h.modw, h.margin, h.pixw]

theorem SameGeometry.decodeReady_iff {s u : State} (h : SameGeometry s u) : DecodeReady s ↔ DecodeReady u := by
  rw [DecodeReady, DecodeReady, h.config, h.modw, h.margin, h.pixw, h.pixh]

/-- A gather depends on the samples it takes and on nothing else of `PIX` (R208, R209). -/
theorem gather_congr {s u : State} (h : SameGeometry s u) {base k : Nat}
    (hsample : ∀ j, j < k → sample s (base + j) = sample u (base + j)) : gather s base k = gather u base k := by
  induction k with
  | zero => rfl
  | succ k ih =>
    have hprefix : gather s base k = gather u base k := ih fun j hj => hsample j (Nat.lt_succ_of_lt hj)
    have hfit : runInBounds s (base + k) ↔ runInBounds u (base + k) := h.runFits_iff (base + k)
    rw [gather, gather, hprefix, hsample k (Nat.lt_succ_self k)]
    simp only [hfit]

/-- The digit of a group depends on its seven sampled pixels (R207, R209). -/
theorem groupDigit_congr {s u : State} (h : SameGeometry s u) {g : Nat}
    (hsample : ∀ k, k < 7 → samplePixel s (firstPosition s.config.layout g + k) =
      samplePixel u (firstPosition s.config.layout g + k)) : groupDigit s g = groupDigit u g := by
  rw [firstPosition_eq_groupBase] at hsample
  rw [groupDigit, groupDigit, ← h.config, gather_congr h hsample]

theorem groupShows_congr {s u : State} (h : SameGeometry s u) {g : Nat} {d : Digit}
    (hsample : ∀ k, k < 7 → samplePixel s (firstPosition s.config.layout g + k) =
      samplePixel u (firstPosition s.config.layout g + k)) : GroupShows s g d ↔ GroupShows u g d := by
  rw [groupShows_iff, groupShows_iff, groupDigit_congr h hsample]

/-- The walk depends on the digits of its groups. -/
theorem walk_congr {s u : State} {n : Nat} (h : ∀ g, g < n → groupDigit s g = groupDigit u g) :
    walk s n = walk u n := by
  induction n with
  | zero => rfl
  | succ n ih => rw [walk, walk, ih fun g hg => h g (Nat.lt_succ_of_lt hg), h n (Nat.lt_succ_self n)]

/-- The result of `DEC` depends on the geometry and on the digits of the eight groups (R201). -/
theorem decResult_congr {s u : State} (h : SameGeometry s u) (hdigit : ∀ g, g < 8 → groupDigit s g = groupDigit u g) :
    decResult s = decResult u := by
  rw [decResult, decResult, h.config, h.modw, h.margin, h.pixw, h.pixh, walk_congr hdigit]

/-- Settles O30: the two runs have one result, and it determines `ERR`, and `OUTID` on success. -/
theorem decIgnoresUnsampledPixels : Obligations.DecIgnoresUnsampledPixels := by
  unfold Obligations.DecIgnoresUnsampledPixels
  intro s u t v ⟨hconfig, hmodw, hmargin, hpixw, hpixh, hsample⟩ hs hu
  have hgeometry : SameGeometry s u := ⟨hconfig, hmodw, hmargin, hpixw, hpixh⟩
  have hresult : decResult s = decResult u :=
    decResult_congr hgeometry fun g hg => groupDigit_congr hgeometry fun k hk => hsample g k hg hk
  cases hu' : decResult u with
  | error k =>
    cases hs.symm.trans (exec_dec_of_error (hresult.trans hu'))
    cases hu.symm.trans (exec_dec_of_error hu')
    exact ⟨rfl, fun herr => absurd herr (State.raise_err_ne_zero (s := s) k)⟩
  | ok D =>
    cases hs.symm.trans (exec_dec_of_ok (hresult.trans hu'))
    cases hu.symm.trans (exec_dec_of_ok hu')
    exact ⟨rfl, fun _ => rfl⟩

/-! ### A drawn matrix, seen by `DEC` -/

/-- The digit groups lie inside the symbol (R207). -/
theorem groupBase_add_lt (l : Layout) {g k : Nat} (hg : g < 8) (hk : k < 7) : groupBase l g + k < totalModules l := by
  obtain ⟨hstart, -, hend, htotal, -⟩ := layout_bounds l
  unfold groupBase
  split <;> omega

/-- The module bits of a digit group are the elements of its digit's pattern (R179, R207). -/
theorem moduleBit_groupBase (l : Layout) (D : Vector Digit 8) {g k : Nat} (hg : g < 8) (hk : k < 7) :
    moduleBit l D (groupBase l g + k) = element (groupPattern g D[g]) k := by
  unfold groupBase groupPattern
  split
  next hleft => exact moduleBit_left l D hleft hk
  next hright => exact moduleBit_right l D (not_lt.1 hright) hg hk

/-- The block after `ENC` drew eight digits (R171). -/
def State.drawn (s : State) (D : Vector Digit 8) : State := (s.setMatrix (s.drawing D)).done

section Drawn

variable {s : State} {D : Vector Digit 8}

@[simp] theorem State.drawn_config : (s.drawn D).config = s.config := rfl
@[simp] theorem State.drawn_modw : (s.drawn D).modw = s.modw := rfl
@[simp] theorem State.drawn_margin : (s.drawn D).margin = s.margin := rfl

@[simp] theorem State.drawn_pixw_toNat : (s.drawn D).pixw.toNat = s.drawWidth := Nat.mod_eq_of_lt s.draw_fits.1
@[simp] theorem State.drawn_pixh_toNat : (s.drawn D).pixh.toNat = s.drawHeight := Nat.mod_eq_of_lt s.draw_fits.2

/-- A run of `ENC` that succeeds drew the identifier of `IDBUF` in a legal geometry (R171). -/
theorem exec_enc_of_success {t : State} (h : exec .enc s = .next t) (herr : t.err = 0) :
    ∃ D, HoldsIdentifier s D ∧ DrawReady s ∧ t = s.drawn D := by
  cases hresult : encResult s with
  | error k =>
    cases h.symm.trans (exec_enc_of_error hresult)
    exact absurd herr (State.raise_err_ne_zero (s := s) k)
  | ok M =>
    obtain ⟨D, hdigits, hmodw, hbarh, hcap, rfl⟩ := encResult_eq_ok.1 hresult
    have hD : HoldsIdentifier s D := identifierDigits_identifier_eq_some.1 hdigits
    have hready : DrawReady s := ⟨hmodw, hbarh, by rwa [drawnWidth_eq, drawnHeight_eq]⟩
    exact ⟨D, hD, hready, Host.Outcome.next.inj (h.symm.trans (exec_enc_of_ready hD hready))⟩

/-- Bars of at least one row leave a row outside the margin band (R175, R204). -/
theorem State.margin_lt_drawHeight (h : s.barh ≠ 0) : 2 * s.margin.toNat < s.drawHeight :=
  Nat.lt_add_of_pos_left (BitVec.toNat_pos_of_ne_zero h)

/-- A drawn matrix meets the preconditions of `DEC` (R204). -/
theorem decodeReady_drawn (h : DrawReady s) : DecodeReady (s.drawn D) := by
  obtain ⟨hmodw, hbarh, hcap⟩ := h
  rw [drawnWidth_eq, drawnHeight_eq] at hcap
  have hwidth := s.drawWidth_pos hmodw
  have hheight := s.drawHeight_pos hbarh
  have hband := s.margin_lt_drawHeight hbarh
  rw [← State.drawn_pixw_toNat (D := D)] at hcap hwidth
  rw [← State.drawn_pixh_toNat (D := D)] at hcap hheight hband
  exact ⟨hmodw, fun hzero => hwidth.ne' (congrArg BitVec.toNat hzero),
    fun hzero => hheight.ne' (congrArg BitVec.toNat hzero), hcap, hband⟩

/-- Every module of a drawn symbol lies inside its row (R175, R206). -/
theorem runFits_drawn {p : Nat} (hp : p < totalModules s.config.layout) : RunFits (s.drawn D) p := by
  have hmodules : (p + 1) * s.modw.toNat ≤ totalModules s.config.layout * s.modw.toNat := Nat.mul_le_mul_right _ hp
  rw [RunFits, State.drawn_pixw_toNat, State.drawn_margin, State.drawn_modw, State.drawWidth, symbolWidth]
  omega

/-- The sample of a module of a drawn symbol is its module bit (R182, R205). -/
theorem sample_drawn {p : Nat} (h : DrawReady s) (hp : p < totalModules s.config.layout) :
    sample (s.drawn D) p = moduleBit s.config.layout D p := by
  obtain ⟨hmodw, hbarh, -⟩ := h
  have hmw := BitVec.toNat_pos_of_ne_zero hmodw
  have hband := s.margin_lt_drawHeight hbarh
  have hfit : RunFits (s.drawn D) p := runFits_drawn hp
  rw [RunFits, State.drawn_pixw_toNat, State.drawn_margin, State.drawn_modw, Nat.succ_mul] at hfit
  have hcol : s.margin.toNat + p * s.modw.toNat < s.drawWidth := by omega
  have hrow : s.drawHeight / 2 < s.drawHeight := by omega
  calc sample (s.drawn D) p
      = (s.drawn D).pixAt (s.drawHeight / 2 * s.drawWidth + (s.margin.toNat + p * s.modw.toNat)) := by
        rw [sample, sampleAddress, scanRow, Nat.add_assoc]
        simp
    _ = pixel s.config.layout D s.modw.toNat s.margin.toNat s.drawWidth s.drawHeight
          (s.margin.toNat + p * s.modw.toNat) (s.drawHeight / 2) := s.setMatrix_drawing_pixAt D hcol hrow
    _ = moduleBit s.config.layout D p :=
        pixel_bar s.config.layout D (j := 0) hmw hp (by omega) (by omega)

/-- Every group of a drawn matrix shows the digit that was drawn (R212). -/
theorem groupShows_drawn (h : DrawReady s) {g : Nat} (hg : g < 8) : GroupShows (s.drawn D) g D[g] := by
  refine groupShows_iff.2 (groupDigit_eq_ok.2 fun k hk => ?_)
  have hp : groupBase s.config.layout g + k < totalModules s.config.layout := groupBase_add_lt _ hg hk
  exact ⟨runFits_drawn hp, (sample_drawn h hp).trans (moduleBit_groupBase _ D hg hk)⟩

end Drawn

/-! ### The round trip -/

/-- States of one geometry whose cells agree at the address of a sample agree on that sample (R205). -/
theorem SameGeometry.samplePixel_eq {s u : State} (h : SameGeometry s u) {p : Nat}
    (hcell : s.pixAt (sampleAddress s p) = u.pixAt (sampleAddress s p)) : samplePixel s p = samplePixel u p :=
  hcell.trans (congrArg u.pixAt (h.sampleAddress_eq p))

/-- A sample whose run fits the row is a cell of the matrix (R206). -/
theorem sampleAddress_lt {s : State} {p : Nat} (h : DecodeReady s) (hfit : RunFits s p) :
    sampleAddress s p < s.pixw.toNat * s.pixh.toNat := by
  obtain ⟨hmodw, -, hpixh, -⟩ := h
  have hmw := BitVec.toNat_pos_of_ne_zero hmodw
  have hh := BitVec.toNat_pos_of_ne_zero hpixh
  have hrow : (scanRow s + 1) * s.pixw.toNat ≤ s.pixh.toNat * s.pixw.toNat :=
    Nat.mul_le_mul_right _ (Nat.div_lt_self hh (by decide))
  rw [RunFits, Nat.succ_mul] at hfit
  rw [Nat.succ_mul] at hrow
  rw [sampleAddress, Nat.mul_comm s.pixw.toNat]
  omega

/-- What `ENC` drew, `DEC` recovers in any state of that geometry that has the 56 sampled pixels of the drawing: this is
R212 where no pixel changed, and R213 where one that is not sampled did. -/
theorem exec_dec_of_drawn_samples {s t u v : State} (henc : exec .enc s = .next t) (herr : t.err = 0)
    (hgeometry : SameGeometry u t)
    (hsample : ∀ g k, g < 8 → k < 7 → samplePixel u (firstPosition u.config.layout g + k) =
      samplePixel t (firstPosition u.config.layout g + k)) (hdec : exec .dec u = .next v) :
    v.err = 0 ∧ ∀ i (h : i < 8), v.outid[i] = s.idbuf[i] := by
  obtain ⟨D, ⟨-, hchars, hcheck⟩, hready, rfl⟩ := exec_enc_of_success henc herr
  have hshows (g : Nat) (hg : g < 8) : GroupShows u g D[g] := by
    rw [groupShows_congr hgeometry fun k hk => hsample g k hg hk]
    exact groupShows_drawn hready hg
  cases hdec.symm.trans (exec_dec_of_shows (hgeometry.decodeReady_iff.2 (decodeReady_drawn hready)) hshows hcheck)
  refine ⟨rfl, fun i hi => ?_⟩
  rw [digitChars_getElem, eq_comm, eq_charOf_iff_toNat]
  exact hchars i hi

/-- The reset state with the identifier 00000000 and a symbol of one row, one pixel per module and no margin. -/
def zerosOfOneRow : State :=
  { State.reset with idlen := 8, idbuf := Vector.replicate 15 0x30, modw := 1, barh := 1 }

/-- That identifier drawn (R171). -/
def zerosDrawn : State := zerosOfOneRow.drawn (Vector.replicate 8 0)

/-- That drawing with another margin: its one row lies in the margin band (R204, R212). -/
def zerosInTheMargin : State := { zerosDrawn with margin := 1 }

/-- Settles O42: the samples of a drawing are those of its digits; and a margin of 1 leaves no row of a matrix one row
high. -/
theorem decodeRecoversWhatEncodeDrew : Obligations.DecodeRecoversWhatEncodeDrew := by
  unfold Obligations.DecodeRecoversWhatEncodeDrew
  constructor
  · intro s t u henc herr hconfig hmodw hmargin hpixw hpixh hcells
    have hgeometry : SameGeometry u t := ⟨hconfig, hmodw, hmargin, hpixw, hpixh⟩
    obtain ⟨v, hdec⟩ := exec_has_next .dec u
    refine ⟨v, hdec, exec_dec_of_drawn_samples henc herr hgeometry (fun g k hg hk => ?_) hdec⟩
    obtain ⟨D, -, hready, rfl⟩ := exec_enc_of_success henc herr
    obtain ⟨hfit, -⟩ := groupShows_drawn (D := D) hready hg k hk
    rw [hconfig]
    refine hgeometry.samplePixel_eq ?_
    rw [hgeometry.sampleAddress_eq]
    exact hcells _ (sampleAddress_lt (decodeReady_drawn hready) hfit)
  · exact ⟨zerosOfOneRow, zerosDrawn, zerosInTheMargin, failed zerosInTheMargin 6, rfl, rfl, rfl, rfl, by decide⟩

/-! ### One flipped pixel -/

/-- A position of a digit group belongs to that group alone (R207). -/
theorem firstPosition_add_injective {l : Layout} {g g' k k' : Nat} (hk : k < 7) (hk' : k' < 7)
    (h : firstPosition l g + k = firstPosition l g' + k') : g = g' ∧ k = k' := by
  obtain ⟨hstart, -⟩ := layout_bounds l
  rw [firstPosition_eq_groupBase, firstPosition_eq_groupBase] at h
  unfold groupBase at h
  split at h <;> split at h <;> omega

/-- Different positions are sampled at different addresses (R205). -/
theorem sampleAddress_injective {s : State} (hmodw : s.modw ≠ 0) {p q : Nat}
    (h : sampleAddress s p = sampleAddress s q) : p = q :=
  Nat.eq_of_mul_eq_mul_right (BitVec.toNat_pos_of_ne_zero hmodw) (Nat.add_left_cancel h)

/-- A pattern with no element set, one apart, has at most one set bit. -/
theorem onesIn_le_one {t : Pattern} {i : Nat} (hi : i < 7) (h : ∀ j, j < 7 → j ≠ i → t.getLsbD j = false) :
    onesIn t.toNat ≤ 1 := by
  have hbit (j : Nat) : t.toNat / 2 ^ j % 2 = (t.getLsbD j).toNat := (Nat.toNat_testBit t.toNat j).symm
  calc onesIn t.toNat = ∑ j ∈ Finset.range 7, (t.getLsbD j).toNat := by
        simp only [← hbit]
        rfl
    _ = (t.getLsbD i).toNat := Finset.sum_eq_single i
        (fun j hj hne => by rw [h j (Finset.mem_range.1 hj) hne, Bool.toNat_false])
        (fun hout => absurd (Finset.mem_range.2 hi) hout)
    _ ≤ 1 := Bool.toNat_le _

theorem groupPattern_mem (g : Nat) (d : Digit) : groupPattern g d ∈ ltab.toList ++ rtab.toList := by
  unfold groupPattern
  split
  · exact List.mem_append_left _ (mem_table.2 ⟨d, rfl⟩)
  · exact List.mem_append_right _ (mem_table.2 ⟨d, rfl⟩)

/-- Patterns of a group that agree in all elements but one are the same: two patterns differ in at least two (R142
item 5). -/
theorem groupPattern_eq_of_agree {g k : Nat} {d e : Digit} (hk : k < 7)
    (h : ∀ j, j < 7 → j ≠ k → element (groupPattern g d) j = element (groupPattern g e) j) :
    groupPattern g d = groupPattern g e := by
  by_contra hne
  have hfar := two_le_distance _ (groupPattern_mem g d) _ (groupPattern_mem g e) hne
  have hnear : onesIn (groupPattern g d ^^^ groupPattern g e).toNat ≤ 1 := by
    refine onesIn_le_one (i := 6 - k) (by omega) fun i hi hik => ?_
    have hbit := h (6 - i) (by omega) (by omega)
    rw [element_eq _ (by omega), element_eq _ (by omega), Nat.sub_sub_self (Nat.le_of_lt_succ hi)] at hbit
    rw [BitVec.getLsbD_xor, BitVec.ofBool_eq_iff_eq.1 hbit, Bool.xor_self]
  omega

/-- A group that shows a digit shows none once one of its samples has changed (R213). -/
theorem not_groupShows_of_one_change {s u : State} (h : SameGeometry u s) {g k : Nat} {d : Digit} (hk : k < 7)
    (hshows : GroupShows s g d)
    (hother : ∀ j, j < 7 → j ≠ k → samplePixel u (firstPosition u.config.layout g + j) =
      samplePixel s (firstPosition u.config.layout g + j))
    (hchanged : samplePixel u (firstPosition u.config.layout g + k) ≠
      samplePixel s (firstPosition u.config.layout g + k)) : ¬ ∃ e, GroupShows u g e := by
  rintro ⟨e, he⟩
  have hold := groupDigit_eq_ok.1 (groupShows_iff.1 hshows)
  have hnew := groupDigit_eq_ok.1 (groupShows_iff.1 he)
  rw [firstPosition_eq_groupBase] at hother hchanged
  rw [← h.config] at hold
  have hpattern : groupPattern g e = groupPattern g d := groupPattern_eq_of_agree hk fun j hj hjk => by
    obtain ⟨-, hnewj⟩ := hnew j hj
    obtain ⟨-, holdj⟩ := hold j hj
    exact hnewj.symm.trans ((hother j hj hjk).trans holdj)
  obtain ⟨-, hnewk⟩ := hnew k hk
  obtain ⟨-, holdk⟩ := hold k hk
  exact hchanged (hnewk.trans ((congrArg (element · k) hpattern).trans holdk.symm))

/-- `DEC` fails on the lookup when one sample of a matrix that shows eight digits has changed (R213). -/
theorem exec_dec_of_one_change {s u : State} (h : SameGeometry u s) (hready : DecodeReady u)
    (hshows : ∀ g, g < 8 → ∃ d, GroupShows s g d) {g k : Nat} (hg : g < 8) (hk : k < 7)
    (hother : ∀ p, p ≠ firstPosition u.config.layout g + k → samplePixel u p = samplePixel s p)
    (hchanged : samplePixel u (firstPosition u.config.layout g + k) ≠
      samplePixel s (firstPosition u.config.layout g + k)) : exec .dec u = .next (failed u 4) := by
  obtain ⟨d, hd⟩ := hshows g hg
  have hbefore (g' : Nat) (hlt : g' < g) : ∃ d, GroupShows u g' d := by
    refine (hshows g' (hlt.trans hg)).imp fun d hd => (groupShows_congr h fun j hj => hother _ fun hsame => ?_).2 hd
    obtain ⟨hgroup, -⟩ := firstPosition_add_injective hj hk hsame
    exact hlt.ne hgroup
  have hfit (j : Nat) (hj : j < 7) : RunFits u (firstPosition u.config.layout g + j) := by
    obtain ⟨hrun, -⟩ := hd j hj
    rwa [h.runFits_iff, h.config]
  have hno : ¬ ∃ e, GroupShows u g e := not_groupShows_of_one_change h hk hd
    (fun j _ hjk => hother _ fun hsame => hjk (Nat.add_left_cancel hsame)) hchanged
  exact exec_dec_of_group_error hready hg hbefore (groupDigit_of_no_digit hfit hno)

/-- Settles O43: at a sampled address one sample has changed, and at any other the 56 samples are those drawn. -/
theorem flippedPixelIsNoticedOrHarmless : Obligations.FlippedPixelIsNoticedOrHarmless := by
  unfold Obligations.FlippedPixelIsNoticedOrHarmless
  intro s t u v a henc herr _ hconfig hmodw hmargin hpixw hpixh hflip hother hdec
  have hgeometry : SameGeometry u t := ⟨hconfig, hmodw, hmargin, hpixw, hpixh⟩
  have hkept (p : Nat) (hp : sampleAddress u p ≠ a) : samplePixel u p = samplePixel t p :=
    hgeometry.samplePixel_eq (hother _ hp)
  constructor
  · rintro ⟨g, k, hg, hk, ha⟩
    obtain ⟨D, -, hdraw, rfl⟩ := exec_enc_of_success henc herr
    have hready : DecodeReady u := hgeometry.decodeReady_iff.2 (decodeReady_drawn hdraw)
    have ⟨hmodw0, _⟩ := hready
    have hchanged : samplePixel u (firstPosition u.config.layout g + k) ≠
        samplePixel (s.drawn D) (firstPosition u.config.layout g + k) := by
      rw [samplePixel, samplePixel, ← hpixh, ← hpixw, ← hmargin, ← hmodw, ← ha]
      exact hflip
    have hfailed : exec .dec u = .next (failed u 4) :=
      exec_dec_of_one_change hgeometry hready (fun g' hg' => ⟨D[g'], groupShows_drawn hdraw hg'⟩) hg hk
        (fun p hp => hkept p fun hsame => hp (sampleAddress_injective hmodw0 (hsame.trans ha))) hchanged
    exact Host.Outcome.next.inj (hdec.symm.trans hfailed)
  · intro hunsampled
    refine exec_dec_of_drawn_samples henc herr hgeometry (fun g k hg hk => hkept _ fun ha => ?_) hdec
    exact hunsampled ⟨g, k, hg, hk, ha.symm⟩

end Sys2Proof.Machine

/-! The bitmap text unit in the claims' arithmetic (spec/45_bitmap_codec.md): the bytes `BMW` writes, the texts `BMR`
accepts and what it makes of their pixel area, and the round trip. -/

namespace Sys2Proof.Machine

open Sys2Proof.Claims

/-! ### Numbers and headers -/

/-- The bytes of `dec(n)` in the claims are the model's (R236). -/
theorem decimalBytes_eq_decimal {n : Nat} (hn : n ≠ 0) : decimalBytes n = decimal n := by
  induction n using Nat.strongRecOn with
  | ind n ih =>
    have hlast : BitVec.ofNat 8 (0x30 + n % 10) = charOf (Fin.ofNat 10 n) :=
      congrArg (BitVec.ofNat 8) (Nat.add_comm _ _)
    rw [decimalBytes, Nat.digits_def' (by decide) (Nat.pos_of_ne_zero hn), List.map_cons, List.reverse_cons, hlast,
      ← decimalBytes]
    rcases Nat.lt_or_ge n 10 with hsmall | hlarge
    · rw [Nat.div_eq_of_lt hsmall, decimal_small hsmall]
      rfl
    · have hrest : n / 10 ≠ 0 := by omega
      rw [ih (n / 10) (by omega) hrest, decimal_step hlarge]

/-- The first two lines in the claims are the model's (R234). -/
theorem headerBytes_eq_headerText {W H : Nat} (hW : W ≠ 0) (hH : H ≠ 0) : headerBytes W H = headerText W H := by
  rw [headerBytes, decimalBytes_eq_decimal hW, decimalBytes_eq_decimal hH, headerText]

/-- The length of the text is that of its header and two bytes per pixel (R235). -/
theorem textLength_eq_header (W H : Nat) : textLength W H = (headerText W H).length + 2 * (W * H) := by
  simp only [textLength, headerText, List.length_append, List.length_cons, List.length_nil, Nat.mul_assoc]

/-- The whitespace of the claims is the model's (R232). -/
theorem isSpace_iff {c : Byte} : isSpace c = true ↔ IsSpace c := by
  simp only [isSpace, IsSpace, Bool.or_eq_true, beq_iff_eq, or_assoc]

/-- The digit bytes of the claims are the model's (R18). -/
theorem isDigit_iff_not_notDigit {c : Byte} : isDigit c = true ↔ ¬ NotDigit c := by
  rw [isDigit_iff, NotDigit]
  omega

/-- The value the model reads from a run of digit bytes is the claims' (R243). -/
theorem decimalValue_eq_ofDigits (ds : List Byte) :
    decimalValue ds = Nat.ofDigits 10 (ds.map (fun c => c.toNat - 0x30)).reverse := by
  induction ds using List.reverseRecOn with
  | nil => rfl
  | append_singleton ds c ih =>
    rw [decimalValue_append_one, ih, List.map_append, List.reverse_append, List.map_singleton,
      List.reverse_singleton, List.singleton_append, Nat.ofDigits_cons]
    exact Nat.add_comm _ _

/-- A number of the claims is a run of digit bytes with the value the model reads (R243). -/
theorem isNumber_iff {ds : List Byte} {n : Nat} :
    IsNumber ds n ↔ ds ≠ [] ∧ (∀ c ∈ ds, isDigit c = true) ∧ n = decimalValue ds := by
  simp only [IsNumber, isDigit_iff_not_notDigit, decimalValue_eq_ofDigits]

/-- The blank and comment lines of the claims are those the model skips (R242). -/
theorem blankRun_of_blankLines {run : List Byte} (h : BlankLines run) : BlankRun run := by
  induction h with
  | nil => exact .nil
  | space hc _ ih => exact .space (isSpace_iff.2 hc) ih
  | @comment body cs hbody _ ih =>
    have hline : [0x23] ++ body ++ [0x0A] ++ cs = 0x23 :: body ++ 0x0A :: cs := by simp
    rw [hline]
    exact .comment hbody ih

/-! ### What `BMW` writes -/

theorem exec_bmw (s : State) : exec .bmw s = .next (s.conclude (bmwResult s) State.setText) := rfl

/-- The text of the matrix in `PIX` (R234). -/
def State.matrixText (s : State) : List Byte := Machine.matrixText s.pixw.toNat s.pixh.toNat s.pixAt

/-- A register that is not 0 holds a positive number. -/
theorem toNat_ne_zero {w : Nat} {v : BitVec w} (h : v ≠ 0) : v.toNat ≠ 0 := (BitVec.toNat_pos_of_ne_zero h).ne'

/-- With the preconditions met, the header the claims write is the model's (R234). -/
theorem headerBytes_of_ready {s : State} (h : WriteReady s) :
    headerBytes s.pixw.toNat s.pixh.toNat = headerText s.pixw.toNat s.pixh.toNat := by
  obtain ⟨-, hpixw, hpixh, -⟩ := h
  exact headerBytes_eq_headerText (toNat_ne_zero hpixw) (toNat_ne_zero hpixh)

/-- `BMW` writes under the preconditions of the claims, and then the text of the matrix in `PIX` (R233). -/
theorem bmwResult_eq_ok_iff_ready {s : State} {x : List Byte} :
    bmwResult s = .ok x ↔ WriteReady s ∧ x = s.matrixText := by
  rw [bmwResult_eq_ok, textLength_eq_header]
  constructor
  · rintro ⟨hbmc, hpixw, hpixh, hpix, htxt, hx⟩
    rw [← headerBytes_eq_headerText (toNat_ne_zero hpixw) (toNat_ne_zero hpixh)] at htxt
    exact ⟨⟨hbmc, hpixw, hpixh, hpix, htxt⟩, hx⟩
  · rintro ⟨hready, hx⟩
    have hheader := headerBytes_of_ready hready
    obtain ⟨hbmc, hpixw, hpixh, hpix, htxt⟩ := hready
    exact ⟨hbmc, hpixw, hpixh, hpix, hheader ▸ htxt, hx⟩

/-- The successful end of `BMW` (R233, R279). -/
theorem exec_bmw_of_ready {s : State} (h : WriteReady s) : exec .bmw s = .next (s.setText s.matrixText).done := by
  rw [exec_bmw, bmwResult_eq_ok_iff_ready.2 ⟨h, rfl⟩, State.conclude_ok]

/-- A run of `BMW` that succeeds wrote the text of a matrix that fits (R233). -/
theorem exec_bmw_of_success {s t : State} (h : exec .bmw s = .next t) (herr : t.err = 0) :
    WriteReady s ∧ t = (s.setText s.matrixText).done := by
  cases hresult : bmwResult s with
  | error k =>
    rw [exec_bmw, hresult, State.conclude_error] at h
    cases h
    exact absurd herr (State.raise_err_ne_zero (s := s) k)
  | ok x =>
    obtain ⟨hready, -⟩ := bmwResult_eq_ok_iff_ready.1 hresult
    exact ⟨hready, Host.Outcome.next.inj (h.symm.trans (exec_bmw_of_ready hready))⟩

/-- The length of the written text in the claims' arithmetic (R235). -/
theorem State.matrixText_length_of_ready {s : State} (h : WriteReady s) :
    s.matrixText.length = (headerBytes s.pixw.toNat s.pixh.toNat).length + 2 * (s.pixw.toNat * s.pixh.toNat) := by
  rw [headerBytes_of_ready h, State.matrixText, matrixText_length, textLength_eq_header]

/-- The written text fits `TXT` (R233). -/
theorem State.matrixText_fits {s : State} (h : WriteReady s) : s.matrixText.length ≤ s.config.txtCap.val := by
  rw [State.matrixText_length_of_ready h]
  obtain ⟨-, -, -, -, htxt⟩ := h
  exact htxt

/-- The text of a matrix is its header and its pixel area (R234). -/
theorem matrixText_eq_append (W H : Nat) (cell : Nat → Bit) :
    matrixText W H cell = headerText W H ++ pixelArea W H cell := rfl

/-- A text that fits `TXT` has a length that fits `TXTLEN` (R248). -/
theorem State.setText_txtlen_toNat (s : State) {x : List Byte} (h : x.length ≤ s.config.txtCap.val) :
    (s.setText x).txtlen.toNat = x.length :=
  Nat.mod_eq_of_lt (h.trans_lt s.config.txtCap.isLt)

/-- A byte of a written text, once it is in `TXT` (R233). -/
theorem State.setText_txtAt_of_getElem? (s : State) {x : List Byte} {a : Nat} {c : Byte} (h : x[a]? = some c) :
    (s.setText x).txtAt a = c := by
  obtain ⟨hlt, hget⟩ := List.getElem?_eq_some_iff.1 h
  rw [State.setText_txtAt, dif_pos hlt, hget]

/-- The bytes of the header in the text of a matrix (R234). -/
theorem matrixText_header_getElem? (W H : Nat) (cell : Nat → Bit) {a : Nat} (h : a < (headerText W H).length) :
    (matrixText W H cell)[a]? = some (headerText W H)[a] := by
  rw [matrixText_eq_append, List.getElem?_append_left h, List.getElem?_eq_getElem h]

/-- The two bytes of a pixel in the text of a matrix (R234). -/
theorem matrixText_pixel_getElem? (W H : Nat) (cell : Nat → Bit) {x y b : Nat} (hx : x < W) (hy : y < H)
    (hb : b < 2) :
    (matrixText W H cell)[(headerText W H).length + 2 * (y * W + x) + b]? = (pixelText W (cell (y * W + x)) x)[b]? := by
  rw [matrixText_eq_append, Nat.add_assoc, List.getElem?_append_right (Nat.le_add_right _ _), Nat.add_sub_cancel_left,
    pixelArea_getElem? W H cell hx hy hb]

/-- The two bytes of a pixel of a written matrix, once they are in `TXT` (R234). -/
theorem State.setText_matrixText_txtAt (s : State) {x y b : Nat} {c : Byte} (hx : x < s.pixw.toNat)
    (hy : y < s.pixh.toNat) (hb : b < 2)
    (hc : (pixelText s.pixw.toNat (s.pixAt (y * s.pixw.toNat + x)) x)[b]? = some c) :
    (s.setText s.matrixText).txtAt
      ((headerText s.pixw.toNat s.pixh.toNat).length + 2 * (y * s.pixw.toNat + x) + b) = c :=
  s.setText_txtAt_of_getElem? ((matrixText_pixel_getElem? _ _ _ hx hy hb).trans hc)

/-- The character of a pixel (R232). -/
theorem pixelChar_toNat (b : Bit) : (0x30 + b.setWidth 8 : Byte).toNat = 0x30 + b.toNat := by revert b; decide

/-- Settles O31: the written text is the header and two bytes per pixel, and `TXT` is read byte by byte. -/
theorem bmwWritesTheText : Obligations.BmwWritesTheText := by
  unfold Obligations.BmwWritesTheText
  intro s hready
  have hlen := State.matrixText_length_of_ready hready
  have htxtlen := s.setText_txtlen_toNat (State.matrixText_fits hready)
  rw [headerBytes_of_ready hready] at hlen ⊢
  refine ⟨_, exec_bmw_of_ready hready, htxtlen.trans hlen, fun a ha => ?_, fun x y hx hy => ⟨?_, ?_⟩, fun a ha => ?_, rfl⟩
  · exact s.setText_txtAt_of_getElem? (matrixText_header_getElem? _ _ _ ha)
  · rw [State.done_txtAt, ← pixelChar_toNat]
    exact congrArg _ (s.setText_matrixText_txtAt hx hy (b := 0) (by decide) rfl)
  · have hend : ¬ x < s.pixw.toNat - 1 ↔ x + 1 = s.pixw.toNat := by omega
    rw [State.done_txtAt, s.setText_matrixText_txtAt hx hy (b := 1) (by decide) rfl, ← ite_not]
    simp only [hend]
  · rw [State.done_txtlen, htxtlen] at ha
    rw [State.done_txtAt, State.setText_txtAt, dif_neg ha.not_gt]

/-! ### The text `BMR` reads -/

theorem exec_bmr (s : State) : exec .bmr s = .next (s.conclude (bmrResult s) State.setMatrix) := rfl

/-- The failing end of `BMR` (R280). -/
theorem exec_bmr_of_error {s : State} {k : ErrorKind} (h : bmrResult s = .error k) :
    exec .bmr s = .next (failed s k.code) := by
  rw [exec_bmr, h, State.conclude_error]
  rfl

/-- The successful end of `BMR` (R246, R279). -/
theorem exec_bmr_of_ok {s : State} {M : Matrix} (h : bmrResult s = .ok M) :
    exec .bmr s = .next (s.setMatrix M).done := by
  rw [exec_bmr, h, State.conclude_ok]

/-- The bytes that `TXT` holds are the text `BMR` reads (R62). -/
theorem State.text_of_holdsText {s : State} {x : List Byte} (h : HoldsText s x) : s.text = x := by
  obtain ⟨-, hlen, -, hbytes⟩ := h
  refine List.ext_getElem (by simp [State.text, hlen]) fun a _ ha => ?_
  simpa [State.text] using hbytes a ha

/-- Of a text inside `TXT`, the grammar alone decides (R240). -/
theorem bmrResult_of_holdsText {s : State} {x : List Byte} (h : HoldsText s x) :
    bmrResult s = parseText s.config.pixCap.val x := by
  have htext := State.text_of_holdsText h
  obtain ⟨hbmc, hlen, hcap, -⟩ := h
  rw [← hlen] at hcap
  rw [bmrResult, if_neg (by simp [hbmc]), if_neg hcap.not_gt, htext]

/-- `TXTLEN` above `TXT_CAP` fails before the text is read (R240). -/
theorem bmrResult_of_long_text {s : State} (hbmc : s.config.hasBmc = true)
    (h : s.config.txtCap.val < s.txtlen.toNat) : bmrResult s = .error .capacity := by
  rw [bmrResult, if_neg (by simp [hbmc]), if_pos h]

/-- A text whose first token is not the magic token fails in phase 1 (R241). -/
theorem afterMagic_of_no_magic {x : List Byte}
    (h : ¬ ∃ rest, x = 0x50 :: 0x31 :: rest ∧ ∀ c, rest.head? = some c → IsSpace c) :
    afterMagic x = .error .malformedHeader := by
  unfold afterMagic
  split
  next c0 c1 rest =>
    split
    next => rfl
    next hmagic =>
      obtain ⟨rfl, rfl⟩ : c0 = 0x50 ∧ c1 = 0x31 := by simpa [not_or] using hmagic
      split
      next => exact absurd ⟨[], rfl, fun c hc => by cases hc⟩ h
      next c cs =>
        have hopen : ¬ isSpace c = true := fun hc => h ⟨c :: cs, rfl, fun d hd => by
          cases hd
          exact isSpace_iff.1 hc⟩
        exact if_neg hopen
  next => rfl

/-- Settles O34: phase 1 fails without the magic token, and the test of `TXTLEN` stands before phase 1. -/
theorem bmrRequiresTheMagicToken : Obligations.BmrRequiresTheMagicToken := by
  unfold Obligations.BmrRequiresTheMagicToken
  refine ⟨fun s x hx hno => ?_, fun s hbmc hlong => ?_⟩
  · have hmalformed : bmrResult s = .error .malformedHeader := by
      rw [bmrResult_of_holdsText hx, parseText, afterMagic_of_no_magic hno]
    exact exec_bmr_of_error hmalformed
  · exact exec_bmr_of_error (bmrResult_of_long_text hbmc hlong)

/-! ### The pixel area -/

/-- The pixels of an area in the claims are the model's (R244). -/
theorem areaPixels_eq_filterMap (area : List Byte) : areaPixels area = area.filterMap pixelOf := by
  rw [areaPixels, ← List.filterMap_eq_map, List.filterMap_filter]
  refine congrArg (List.filterMap · area) (funext fun c => ?_)
  revert c
  decide

/-- A byte that may stand in the pixel area is whitespace or a pixel (R244). -/
theorem badPixelByte_eq_false_iff {c : Byte} : badPixelByte c = false ↔ IsSpace c ∨ c = 0x30 ∨ c = 0x31 := by
  rw [← isSpace_iff]
  revert c
  decide

/-- An area is clean when the model finds no bad byte in it (R244). -/
theorem areaClean_iff {area : List Byte} : AreaClean area ↔ area.any badPixelByte = false := by
  rw [List.any_eq_false]
  exact forall₂_congr fun c _ => by rw [Bool.not_eq_true, badPixelByte_eq_false_iff]

/-- What follows the height begins with whitespace, or there is nothing (R243). -/
theorem areaDelimited_iff {area : List Byte} : AreaDelimited area ↔ area.head?.all isSpace = true := by
  rw [Option.all_eq_true]
  exact forall₂_congr fun _ _ => isSpace_iff.symm

/-- After a good header whose matrix fits `PIX`, the pixel area decides (R244). -/
theorem parseText_of_isHeader {cap W H : Nat} {x area : List Byte} (hx : IsHeader x W H) (harea : AreaDelimited area)
    (hW : W ≠ 0) (hH : H ≠ 0) (hcap : W * H ≤ cap) :
    parseText cap (x ++ area) = (readPixels (W * H) area).map fun bs => { width := W, height := H, cells := bs } := by
  obtain ⟨c, run, w, sp, h, rfl, hc, hrun, hw, hsp, hspaces, hh⟩ := hx
  obtain ⟨hwne, hwdigits, rfl⟩ := isNumber_iff.1 hw
  obtain ⟨hhne, hhdigits, rfl⟩ := isNumber_iff.1 hh
  have htext : [0x50, 0x31, c] ++ run ++ w ++ sp ++ h ++ area =
      0x50 :: 0x31 :: c :: (run ++ (w ++ sp ++ h ++ area)) := by simp
  rw [htext, parseText_header (isSpace_iff.2 hc) (blankRun_of_blankLines hrun) hwne hwdigits hsp
    (fun d hd => isSpace_iff.2 (hspaces d hd)) hhne hhdigits (areaDelimited_iff.1 harea) ⟨hW, hH⟩, if_neg hcap.not_gt]
  cases readPixels (decimalValue w * decimalValue h) area <;> rfl

/-- A matrix that fits `PIX` has dimensions that fit `PIXW` and `PIXH` (R248). -/
theorem State.setMatrix_size_toNat (s : State) {M : Matrix} (hW : M.width ≠ 0) (hH : M.height ≠ 0)
    (h : M.width * M.height ≤ s.config.pixCap.val) :
    (s.setMatrix M).pixw.toNat = M.width ∧ (s.setMatrix M).pixh.toNat = M.height := by
  obtain ⟨hwidth, hheight⟩ := factors_le hW hH h
  have hcap := s.config.pixCap.isLt
  exact ⟨Nat.mod_eq_of_lt (hwidth.trans_lt hcap), Nat.mod_eq_of_lt (hheight.trans_lt hcap)⟩

/-- Settles O33: after a good header phase 4 decides, by its bad bytes and its count of pixels. -/
theorem bmrReadsThePixelArea : Obligations.BmrReadsThePixelArea := by
  unfold Obligations.BmrReadsThePixelArea
  intro s x area W H hx hheader hdelimited hW hH hcap
  have hresult : bmrResult s = (readPixels (W * H) area).map fun bs => { width := W, height := H, cells := bs } := by
    rw [bmrResult_of_holdsText hx, parseText_of_isHeader hheader hdelimited hW hH hcap]
  rw [readPixels_eq, ← areaPixels_eq_filterMap] at hresult
  simp only [areaClean_iff, Bool.not_eq_false]
  refine ⟨fun hbad => ?_, fun hclean hmany => ?_, fun hclean hfew => ?_, fun hclean hcount => ?_⟩
  · rw [if_pos hbad] at hresult
    exact exec_bmr_of_error hresult
  · rw [if_neg (by simp [hclean]), if_neg hmany.not_gt, if_pos hmany] at hresult
    exact exec_bmr_of_error hresult
  · rw [if_neg (by simp [hclean]), if_pos hfew] at hresult
    exact exec_bmr_of_error hresult
  · rw [if_neg (by simp [hclean]), if_neg hcount.not_lt, if_neg hcount.not_gt] at hresult
    obtain ⟨hpixw, hpixh⟩ := s.setMatrix_size_toNat (M := ⟨W, H, areaPixels area⟩) hW hH hcap
    refine ⟨_, exec_bmr_of_ok hresult, hpixw, hpixh, fun a ha => ?_, fun a ha => ?_, rfl⟩
    · rw [← hcount] at ha
      rw [State.done_pixAt, State.setMatrix_pixAt, dif_pos ha, List.getElem?_eq_getElem ha]
    · rw [← hcount] at ha
      rw [State.done_pixAt, State.setMatrix_pixAt, dif_neg ha.not_gt]

/-! ### The round trip -/

/-- The matrix in `PIX` (R61). -/
def State.matrix (s : State) : Matrix :=
  { width := s.pixw.toNat, height := s.pixh.toNat
    cells := raster s.pixw.toNat s.pixh.toNat fun x y => s.pixAt (y * s.pixw.toNat + x) }

/-- A cell of the matrix of `s`, once that matrix is in the `PIX` of `u` (R246). -/
theorem State.setMatrix_matrix_pixAt (s u : State) {a : Nat} (ha : a < s.pixw.toNat * s.pixh.toNat) :
    (u.setMatrix s.matrix).pixAt a = s.pixAt a := by
  rw [Nat.mul_comm] at ha
  obtain ⟨x, y, hx, hy, rfl⟩ := address_split ha
  obtain ⟨hlt, hcell⟩ := List.getElem?_eq_some_iff.1
    (raster_getElem? _ _ (fun x y => s.pixAt (y * s.pixw.toNat + x)) hx hy)
  rw [State.setMatrix_pixAt]
  exact (dif_pos hlt).trans hcell

/-- What `BMW` wrote stands in `TXT` of every state that has its length and its bytes (R62). -/
theorem holdsText_of_written {s u : State} (h : WriteReady s) (hconfig : u.config = s.config)
    (htxtlen : u.txtlen = (s.setText s.matrixText).txtlen)
    (hbytes : ∀ a, a < (s.setText s.matrixText).txtlen.toNat → u.txtAt a = (s.setText s.matrixText).txtAt a) :
    HoldsText u s.matrixText := by
  have hfits := State.matrixText_fits h
  have hlen := s.setText_txtlen_toNat hfits
  obtain ⟨hbmc, -⟩ := h
  rw [hlen] at hbytes
  rw [HoldsText, hconfig, htxtlen]
  exact ⟨hbmc, hlen, hfits, fun a ha => by rw [hbytes a ha, State.setText_txtAt, dif_pos ha]⟩

/-- From the text that `BMW` wrote of a matrix, `BMR` reads that matrix (R247). -/
theorem bmrResult_of_written {s u : State} (h : WriteReady s) (hconfig : u.config = s.config)
    (hx : HoldsText u s.matrixText) : bmrResult u = .ok s.matrix := by
  obtain ⟨-, hpixw, hpixh, hpix, -⟩ := h
  rw [bmrResult_of_holdsText hx, hconfig]
  exact parseText_matrixText s.pixAt (toNat_ne_zero hpixw) (toNat_ne_zero hpixh) hpix

/-- A one-pixel matrix as the text `P1 1 1 1`, with a space for each LF and none after the last byte. -/
def pixelOnOneLine : State :=
  { State.reset with txtlen := 8, txt := Mem.block 0 [0x50, 0x31, 0x20, 0x31, 0x20, 0x31, 0x20, 0x31] }

/-- That matrix read (R246). -/
def pixelRead : State := (pixelOnOneLine.setMatrix { width := 1, height := 1, cells := [1] }).done

/-- Settles O44: the text of a matrix parses to that matrix; and the text of eight bytes `P1 1 1 1` is written back as
nine. -/
theorem readRecoversWhatWriteWrote : Obligations.ReadRecoversWhatWriteWrote := by
  unfold Obligations.ReadRecoversWhatWriteWrote
  constructor
  · intro s t u hbmw herr hconfig htxtlen hbytes
    obtain ⟨hready, rfl⟩ := exec_bmw_of_success hbmw herr
    have hread := bmrResult_of_written hready hconfig (holdsText_of_written hready hconfig htxtlen hbytes)
    have hsize (v : BitVec 24) : BitVec.ofNat 24 v.toNat = v := by simp
    exact ⟨_, exec_bmr_of_ok hread, rfl, hsize s.pixw, hsize s.pixh, fun a ha => s.setMatrix_matrix_pixAt u ha⟩
  · exact ⟨pixelOnOneLine, pixelRead, (pixelRead.setText pixelRead.matrixText).done, rfl, rfl, rfl, rfl, by decide⟩

end Sys2Proof.Machine

/-! How a command fails (spec/60_exceptions.md R278 to R285): cleanly, with a kind of its row of R285, and with each
kind of that row in some state. -/

namespace Sys2Proof.Machine

open Sys2Proof.Claims

/-! ### Clean failure -/

/-- A raised kind leaves the state that the claims write for its code (R280). -/
theorem State.raise_eq_failed (s : State) (k : ErrorKind) : s.raise k = failed s k.code := rfl

/-- Settles O36: every command ends in `raise`, whose codes are 1 to 9, or in `done`. -/
theorem commandFailsCleanlyOrSucceeds : Obligations.CommandFailsCleanlyOrSucceeds := by
  unfold Obligations.CommandFailsCleanlyOrSucceeds
  intro i s
  obtain ⟨t, ht⟩ := exec_has_next i s
  refine ⟨t, ht, (exec_raise_or_keeps_esticky ht).imp_left ?_⟩
  rintro ⟨k, rfl⟩
  obtain ⟨hpos, hle⟩ := k.code_range
  exact ⟨k.code, hpos, hle, s.raise_eq_failed k⟩

/-- The step of a write of `CMD` issues the low half of the word (R22). -/
theorem step_of_command {s : State} {v : Word} {rest : List Transaction} (h : s.script = .regWrite 0x00 v :: rest) :
    step s = issue (BitVec.ofNat 16 v.toNat) (taken s rest) := step_of_script h

/-- An illegal word raises `E_ILLEGAL` (R97, R278). -/
theorem issue_of_illegal {s : State} {w : CmdWord} (h : IllegalWord s.config w) :
    issue w s = .next (failed s 9) := by
  obtain ⟨-, -, hissue⟩ := illegalWordsAreThoseListed s.config
  exact hissue s w rfl h

/-- Settles O6: the step issues the word, and an illegal word raises code 9. -/
theorem illegalWordOnlyRecordsItself : Obligations.IllegalWordOnlyRecordsItself := by
  unfold Obligations.IllegalWordOnlyRecordsItself
  intro s v rest hscript hillegal
  calc step s = issue (BitVec.ofNat 16 v.toNat) (taken s rest) := step_of_command hscript
    _ = .next (failed (taken s rest) 9) := issue_of_illegal hillegal
    _ = _ := rfl

/-! ### The kinds of a failure -/

/-- A command whose result can only be an error of some kinds leaves the code of one of them when it fails (R280). -/
theorem State.conclude_err_mem {α : Type} {s : State} {r : Except ErrorKind α} {commit : State → α → State}
    {codes : List Nat} (hr : ∀ k, r = .error k → k.code ∈ codes) (herr : (s.conclude r commit).err ≠ 0) :
    (s.conclude r commit).err.toNat ∈ codes := by
  cases r with
  | error k => exact (s.raise_err_toNat k).symm ▸ hr k rfl
  | ok v => exact absurd rfl herr

/-- A failed check raises its own kind; past it, the rest of the command decides. -/
theorem kind_of_check {α : Type} {codes : List Nat} {c : Prop} [Decidable c] {e k : ErrorKind}
    {rest : Except ErrorKind α} (he : e.code ∈ codes) (hrest : rest = .error k → k.code ∈ codes)
    (h : (if c then .error e else rest) = .error k) : k.code ∈ codes := by
  split at h
  next => cases h; exact he
  next => exact hrest h

/-- `CHK` fails only for want of seven digits (R123). -/
theorem chkResult_error_kind {s : State} {k : ErrorKind} (h : chkResult s = .error k) : k.code ∈ kindsOf .chk := by
  refine kind_of_check (by decide) (fun h => ?_) h
  split at h
  next => cases h; decide
  next => cases h

/-- `ENC` fails on the identifier, the geometry or the capacity (R173, R174, R176). -/
theorem encResult_error_kind {s : State} {k : ErrorKind} (h : encResult s = .error k) : k.code ∈ kindsOf .enc := by
  unfold encResult at h
  split at h
  next => cases h; decide
  next => exact kind_of_check (by decide) (kind_of_check (by decide) (by nofun)) h

/-- A digit group fails on the bounds or on the lookup (R206, R208). -/
theorem groupDigit_error_kind {s : State} {g : Nat} {k : ErrorKind} (h : groupDigit s g = .error k) :
    k.code ∈ kindsOf .dec := by
  unfold groupDigit at h
  split at h
  next e hgather =>
    cases h
    cases gather_error_kind hgather
    decide
  next =>
    split at h
    next => cases h; decide
    next => cases h

/-- `DEC` fails on its preconditions, in the walk or on the check digit (R204, R208, R210). -/
theorem decResult_error_kind {s : State} {k : ErrorKind} (h : decResult s = .error k) : k.code ∈ kindsOf .dec := by
  refine kind_of_check (by decide) (kind_of_check (by decide) (kind_of_check (by decide)
    (kind_of_check (by decide) fun h => ?_))) h
  split at h
  next e hwalk =>
    cases h
    obtain ⟨g, -, hgroup, -⟩ := walk_error_group hwalk
    exact groupDigit_error_kind hgroup
  next => exact kind_of_check (by decide) (by nofun) h

/-- `BMW`, where the block has it, fails on the dimensions or on a capacity (R233). -/
theorem bmwResult_error_kind {s : State} {k : ErrorKind} (hbmc : s.config.hasBmc = true)
    (h : bmwResult s = .error k) : k.code ∈ kindsOf .bmw := by
  rw [bmwResult, if_neg (by simp [hbmc])] at h
  exact kind_of_check (by decide) (kind_of_check (by decide) (kind_of_check (by decide) (by nofun))) h

/-- Phase 1 fails with a kind of `BMR`'s row (R241). -/
theorem afterMagic_error_kind {x : List Byte} {k : ErrorKind} (h : afterMagic x = .error k) :
    k.code ∈ kindsOf .bmr := by
  unfold afterMagic at h
  split at h
  next =>
    refine kind_of_check (by decide) (fun h => ?_) h
    split at h
    next => cases h
    next =>
      split at h
      next => cases h
      next => cases h; decide
  next => cases h; decide

/-- A number that is missing is an error of that row (R243). -/
theorem readNumber_error_kind {x : List Byte} {k : ErrorKind} (h : readNumber x = .error k) :
    k.code ∈ kindsOf .bmr := by
  unfold readNumber at h
  split at h
  next => cases h; decide
  next =>
    split at h
    next => cases h
    next => cases h; decide

/-- Phase 3 fails on the two numbers, on what closes them, and on a dimension of 0 (R243). -/
theorem readDimensions_error_kind {x : List Byte} {k : ErrorKind} (h : readDimensions x = .error k) :
    k.code ∈ kindsOf .bmr := by
  unfold readDimensions at h
  split at h
  next e hwidth => cases h; exact readNumber_error_kind hwidth
  next => cases h; decide
  next =>
    refine kind_of_check (by decide) (fun h => ?_) h
    split at h
    next e hheight => cases h; exact readNumber_error_kind hheight
    next => exact kind_of_check (by decide) (kind_of_check (by decide) (by nofun)) h

/-- Phase 4 fails on a bad byte or a wrong count of pixels (R244, R245). -/
theorem readPixels_error_kind {need : Nat} {x : List Byte} {k : ErrorKind} (h : readPixels need x = .error k) :
    k.code ∈ kindsOf .bmr := by
  rw [readPixels_eq] at h
  exact kind_of_check (by decide) (kind_of_check (by decide) (kind_of_check (by decide) (by nofun))) h

/-- A text fails in phase 1, in phase 3, on the capacity or in phase 4 (R240). -/
theorem parseText_error_kind {cap : Nat} {x : List Byte} {k : ErrorKind} (h : parseText cap x = .error k) :
    k.code ∈ kindsOf .bmr := by
  unfold parseText at h
  split at h
  next e hmagic => cases h; exact afterMagic_error_kind hmagic
  next =>
    split at h
    next e hdimensions => cases h; exact readDimensions_error_kind hdimensions
    next =>
      refine kind_of_check (by decide) (fun h => ?_) h
      split at h
      next e hpixels => cases h; exact readPixels_error_kind hpixels
      next => cases h

/-- `BMR`, where the block has it, fails on a capacity or on the text (R240). -/
theorem bmrResult_error_kind {s : State} {k : ErrorKind} (hbmc : s.config.hasBmc = true)
    (h : bmrResult s = .error k) : k.code ∈ kindsOf .bmr := by
  rw [bmrResult, if_neg (by simp [hbmc])] at h
  exact kind_of_check (by decide) parseText_error_kind h

/-- A command that the block has fails with a kind of its row (R285). -/
theorem exec_err_mem_kindsOf {i : Instr} {s t : State} (hwf : i.wellFormed s.config = true) (h : exec i s = .next t)
    (herr : t.err ≠ 0) : t.err.toNat ∈ kindsOf i := by
  cases i with
  | chk =>
    cases (exec_chk s).symm.trans h
    exact State.conclude_err_mem (fun k => chkResult_error_kind) herr
  | enc =>
    cases (exec_enc s).symm.trans h
    exact State.conclude_err_mem (fun k => encResult_error_kind) herr
  | dec =>
    cases (exec_dec s).symm.trans h
    exact State.conclude_err_mem (fun k => decResult_error_kind) herr
  | bmw =>
    cases (exec_bmw s).symm.trans h
    exact State.conclude_err_mem (fun k => bmwResult_error_kind hwf) herr
  | bmr =>
    cases (exec_bmr s).symm.trans h
    exact State.conclude_err_mem (fun k => bmrResult_error_kind hwf) herr
  | val => cases (exec_val s).symm.trans h; exact absurd rfl herr
  | lrev p => cases (exec_lrev p s).symm.trans h; exact absurd rfl herr
  | rrev p => cases (exec_rrev p s).symm.trans h; exact absurd rfl herr
  | urev p => cases (exec_urev p s).symm.trans h; exact absurd rfl herr
  | lpat d =>
    have hd : d.toNat ≤ 9 := of_decide_eq_true hwf
    cases (exec_lpat_of_digit (e := ⟨d.toNat, Nat.lt_succ_of_le hd⟩) rfl s).symm.trans h
    exact absurd rfl herr
  | rpat d =>
    have hd : d.toNat ≤ 9 := of_decide_eq_true hwf
    cases (exec_rpat_of_digit (e := ⟨d.toNat, Nat.lt_succ_of_le hd⟩) rfl s).symm.trans h
    exact absurd rfl herr

/-! ### A state for every kind of every row -/

/-- A block that has the command fails with code `n` in some state. -/
def KindOccurs (i : Instr) (n : Nat) : Prop :=
  ∃ s t : State, i.wellFormed s.config = true ∧ exec i s = .next t ∧ t.err.toNat = n

/-- A state in which a command raises a kind is one for its code. -/
theorem KindOccurs.of_raise {i : Instr} {s : State} (k : ErrorKind) (hwf : i.wellFormed s.config = true)
    (h : exec i s = .next (s.raise k)) : KindOccurs i k.code := ⟨s, s.raise k, hwf, h, s.raise_err_toNat k⟩

/-- The largest dimensions the registers hold, and the longest text: more than `PIX` and `TXT` hold. -/
def oversized : State := { State.reset with modw := 1, pixw := 0xFFFFFF, pixh := 0xFFFFFF, txtlen := 0xFFFFFF }

/-- A row of 62 white pixels: no digit has a pattern without bars. -/
def whiteRow : State :=
  { State.reset with modw := 1, pixw := 62, pixh := 1, pix := Mem.block 0 (List.replicate 62 0) }

/-- The digits 00000001 drawn, whose check digit would be 0. -/
def wrongCheckDigit : State := zerosOfOneRow.drawn #v[0, 0, 0, 0, 0, 0, 0, 1]

/-- The text `P1 1 1`, which ends before its one pixel. -/
def missingPixel : State :=
  { State.reset with txtlen := 6, txt := Mem.block 0 [0x50, 0x31, 0x20, 0x31, 0x20, 0x31] }

theorem chk_kinds_occur {n : Nat} (h : n ∈ kindsOf .chk) : KindOccurs .chk n := by
  obtain rfl : n = 1 := by simpa [kindsOf] using h
  exact .of_raise (s := .reset) .invalidIdentifier rfl rfl

theorem enc_kinds_occur {n : Nat} (h : n ∈ kindsOf .enc) : KindOccurs .enc n := by
  obtain rfl | rfl | rfl : n = 1 ∨ n = 7 ∨ n = 8 := by simpa [kindsOf] using h
  · exact .of_raise (s := .reset) .invalidIdentifier rfl rfl
  · exact .of_raise (s := { zerosOfOneRow with modw := 0 }) .geometry rfl rfl
  · exact .of_raise (s := { zerosOfOneRow with barh := 0xFFFF }) .capacity rfl rfl

theorem dec_kinds_occur {n : Nat} (h : n ∈ kindsOf .dec) : KindOccurs .dec n := by
  obtain rfl | rfl | rfl | rfl | rfl : n = 4 ∨ n = 5 ∨ n = 6 ∨ n = 7 ∨ n = 8 := by simpa [kindsOf] using h
  · exact .of_raise (s := whiteRow) .unrecognizedPattern rfl rfl
  · exact .of_raise (s := wrongCheckDigit) .checksumMismatch rfl rfl
  · exact .of_raise (s := zerosInTheMargin) .malformedBarcode rfl rfl
  · exact .of_raise (s := .reset) .geometry rfl rfl
  · exact .of_raise (s := oversized) .capacity rfl rfl

theorem bmw_kinds_occur {n : Nat} (h : n ∈ kindsOf .bmw) : KindOccurs .bmw n := by
  obtain rfl | rfl : n = 7 ∨ n = 8 := by simpa [kindsOf] using h
  · exact .of_raise (s := .reset) .geometry rfl rfl
  · exact .of_raise (s := oversized) .capacity rfl rfl

theorem bmr_kinds_occur {n : Nat} (h : n ∈ kindsOf .bmr) : KindOccurs .bmr n := by
  obtain rfl | rfl | rfl : n = 2 ∨ n = 3 ∨ n = 8 := by simpa [kindsOf] using h
  · exact .of_raise (s := .reset) .malformedHeader rfl rfl
  · exact .of_raise (s := missingPixel) .truncatedData rfl rfl
  · exact .of_raise (s := oversized) .capacity rfl rfl

/-- Settles O37: by the kinds of each command's result, a state for every kind of a row, and the refusal of a word. -/
theorem errorKindsPerCommand : Obligations.ErrorKindsPerCommand := by
  unfold Obligations.ErrorKindsPerCommand
  refine ⟨fun i s t => exec_err_mem_kindsOf, ?_, fun s w => issue_of_illegal⟩
  simp only [List.forall_mem_cons, List.not_mem_nil, false_imp_iff, implies_true, and_true]
  exact ⟨fun _ => chk_kinds_occur, fun _ => enc_kinds_occur, fun _ => dec_kinds_occur, fun _ => bmw_kinds_occur,
    fun _ => bmr_kinds_occur⟩

end Sys2Proof.Machine

/-! Reset and what follows it (spec/70_reset_and_hazards.md): the transaction `Reset` (R310), and the first command
after it (R313). -/

namespace Sys2Proof.Machine

open Sys2Proof.Claims

/-! ### `Reset` -/

/-- The step of a `Reset` that the host issues (R310). -/
theorem step_of_reset {s : State} {rest : List Transaction} (h : s.script = .reset :: rest) :
    step s = .next (s.take rest).hostReset := step_of_script h

/-- A `Reset` after a `Reset` changes no register: the cells are drawn once more, and the script is what is left of it
(R310). -/
theorem hostReset_after_reset (s : State) (ts more : List Transaction) :
    ({ s.hostReset with script := ts }.take more).hostReset =
      { s.hostReset with draws := s.draws + 2, script := more } := rfl

/-- Settles O13: by the fields of `State.hostReset`, which keeps only the configuration, the draws and the script. -/
theorem hostResetGivesTheResetValues : Obligations.HostResetGivesTheResetValues := by
  unfold Obligations.HostResetGivesTheResetValues
  intro s rest hscript
  refine ⟨(s.take rest).hostReset, step_of_reset hscript, rfl, rfl, rfl, rfl, rfl, rfl, rfl, rfl, rfl, rfl,
    fun i hi => ?_, fun i hi => ?_, rfl, rfl, ?_⟩
  · rw [State.hostReset_idbuf, Vector.getElem_replicate]
  · rw [State.hostReset_outid, Vector.getElem_replicate]
  · rintro u v more rfl hstep
    obtain rfl := Host.Outcome.next.inj ((step_of_reset rfl).symm.trans hstep)
    rw [hostReset_after_reset]

/-! ### The first command -/

/-- A block that has an identifier holds eight characters, and after reset `IDLEN` is 0 (R313). -/
theorem cleared_holds_no_identifier (c : Config) (n : Nat) (ts : List Transaction) :
    ¬ ∃ D, HoldsIdentifier (State.cleared c n ts) D := fun ⟨_, hlen, _⟩ => absurd hlen (by decide : ¬ (0 = 8))

/-- After reset `TXT` holds the empty text (R313). -/
theorem cleared_holds_empty_text {c : Config} (hbmc : c.hasBmc = true) (n : Nat) (ts : List Transaction) :
    HoldsText (State.cleared c n ts) [] := ⟨hbmc, rfl, Nat.zero_le _, fun a ha => absurd ha (Nat.not_lt_zero a)⟩

/-- The failing end of `BMW` (R280). -/
theorem exec_bmw_of_error {s : State} {k : ErrorKind} (h : bmwResult s = .error k) :
    exec .bmw s = .next (failed s k.code) := by
  rw [exec_bmw, h, State.conclude_error]
  rfl

/-- Without a matrix `BMW` fails on the geometry (R233). -/
theorem bmwResult_of_no_matrix {s : State} (hbmc : s.config.hasBmc = true) (h : s.pixw = 0 ∨ s.pixh = 0) :
    bmwResult s = .error .geometry := by
  rw [bmwResult, if_neg (by simp [hbmc]), if_pos h]

/-- The empty text has no magic token (R241). -/
theorem exec_bmr_of_empty_text {s : State} (h : HoldsText s []) : exec .bmr s = .next (failed s 2) := by
  obtain ⟨hmagic, -⟩ := bmrRequiresTheMagicToken
  exact hmagic s [] h fun ⟨_, hx, _⟩ => nomatch hx

/-- A reverse lookup succeeds in every state, with a result that depends on the pattern alone (R146 to R148). -/
theorem exec_reverse_lookup {t : Pattern} {i : Instr} (hi : i ∈ [Instr.lrev t, .rrev t, .urev t]) :
    ∃ r, ∀ s, exec i s = .next { s with res := r, err := 0 } := by
  obtain rfl | rfl | rfl : i = .lrev t ∨ i = .rrev t ∨ i = .urev t := by simpa using hi
  · exact ⟨_, exec_lrev t⟩
  · exact ⟨_, exec_rrev t⟩
  · exact ⟨_, exec_urev t⟩

/-- Settles O15: after reset there is no identifier, `MODW`, `PIXW` and `PIXH` are 0 and the text is empty; the lookups
do not depend on the state, and `ERR` was 0. -/
theorem firstCommandAfterReset : Obligations.FirstCommandAfterReset := by
  unfold Obligations.FirstCommandAfterReset
  intro c n ts s
  have hnoid : ¬ ∃ D, HoldsIdentifier s D := cleared_holds_no_identifier c n ts
  obtain ⟨-, -, hval⟩ := valAnswersWhetherIdentifier
  obtain ⟨hdec, -⟩ := decPreconditionsInOrder s
  refine ⟨?_, hval s hnoid, fun d hd => ?_, fun t i hi u => ?_,
    exec_enc_of_error (encResult_of_no_identifier hnoid), hdec rfl, fun hbmc => ⟨?_, ?_⟩⟩
  · have hlen : s.idlen.toNat < 7 := (by decide : 0 < 7)
    exact exec_chk_of_error (chkResult_of_not_digits (.inl hlen))
  · have he : (Fin.ofNat 10 d.toNat).val = d.toNat := Nat.mod_eq_of_lt (Nat.lt_succ_of_le hd)
    rw [groupNumber_eq, groupNumber_eq]
    exact ⟨exec_lpat_of_digit he s, exec_rpat_of_digit he s⟩
  · obtain ⟨r, hr⟩ := exec_reverse_lookup hi
    exact ⟨r, hr s, hr u⟩
  · exact exec_bmw_of_error (bmwResult_of_no_matrix hbmc (.inl rfl))
  · exact exec_bmr_of_empty_text (cleared_holds_empty_text hbmc n ts)

end Sys2Proof.Machine

/-! Decode and encode as inverses of each other (spec/30_encoding.md R90 to R98). -/

namespace Sys2Proof

/-- Settles O2: the fields of a command's word are its code and its operand, which its format accepts. -/
theorem encodedCommandDecodesToItself : Obligations.EncodedCommandDecodesToItself := by
  unfold Obligations.EncodedCommandDecodesToItself
  exact fun c i => decode_encode

/-- Settles O3: a word is its two fields, and decoding drops no bit of either. -/
theorem decodedWordIsTheOnlyEncoding : Obligations.DecodedWordIsTheOnlyEncoding := by
  unfold Obligations.DecodedWordIsTheOnlyEncoding
  exact fun c w i => decode_eq_ok.1

/-- Settles O1: each of the eleven words is the encoder's word of its command, and the block has all eleven. -/
theorem handwrittenWordsDecode : Obligations.HandwrittenWordsDecode := by
  unfold Obligations.HandwrittenWordsDecode
  exact fun c hbmc =>
    ⟨decode_encode (i := .chk) rfl, decode_encode (i := .val) rfl, decode_encode (i := .lpat 4) rfl,
      decode_encode (i := .rpat 9) rfl, decode_encode (i := .lrev 0b0100011) rfl,
      decode_encode (i := .rrev 0b1011100) rfl, decode_encode (i := .urev 0b1111111) rfl,
      decode_encode (i := .enc) rfl, decode_encode (i := .dec) rfl,
      decode_encode (i := .bmw) hbmc, decode_encode (i := .bmr) hbmc⟩

end Sys2Proof

/-! The transactions of the host's script (spec/20_memory.md R64): commands, idle steps, and access to one cell of a
memory. -/

namespace Sys2Proof.Machine

open Sys2Proof.Claims

/-- A legal word executes as the command it stands for (R94). -/
theorem issue_of_ok {w : CmdWord} {s : State} {i : Instr} (h : decode s.config w = .ok i) : issue w s = exec i s := by
  rw [issue, h]

/-- The low half of the word that `withFetchWord` writes is the word it was given. -/
theorem ofNat_toNat_fetchWord (w : Nat) : BitVec.ofNat 16 (BitVec.ofNat 32 (w % 2 ^ 16)).toNat = BitVec.ofNat 16 w := by
  apply BitVec.eq_of_toNat_eq
  simp only [BitVec.toNat_ofNat]
  omega

/-- Settles O5: the step of a write of `CMD` issues its low half, which is legal. -/
theorem stepRunsTheDecodedCommand : Obligations.StepRunsTheDecodedCommand := by
  unfold Obligations.StepRunsTheDecodedCommand
  constructor
  · intro s v rest i hscript hdecode
    rw [step_of_command hscript]
    exact issue_of_ok hdecode
  · intro s w i hdecode
    calc step (s.withFetchWord 16 w)
        = issue (BitVec.ofNat 16 (BitVec.ofNat 32 (w % 2 ^ 16)).toNat) (taken s s.script) := step_of_command rfl
      _ = issue (BitVec.ofNat 16 w) (taken s s.script) := by rw [ofNat_toNat_fetchWord]
      _ = exec i (taken s s.script) := issue_of_ok hdecode

/-- Settles O7: an empty script is the idle branch of the step. -/
theorem idleBlockHoldsItsState : Obligations.IdleBlockHoldsItsState := by
  unfold Obligations.IdleBlockHoldsItsState
  intro s hscript
  rw [step, nextTransaction, hscript]

/-- Settles O10: the address is inside `PIX`, and the state is that of one answer or one write. -/
theorem pixelTransactionsReachOneCell : Obligations.PixelTransactionsReachOneCell := by
  unfold Obligations.PixelTransactionsReachOneCell
  refine fun s a rest ha => ⟨fun hscript => ?_, fun v hscript => ?_⟩
  · rw [BitVec.ofNat_toNat]
    exact (step_of_script hscript).trans (pixAccess_inside (s := s.take rest) _ ha)
  · refine ⟨_, (step_of_script hscript).trans (pixAccess_inside _ ha), rfl, ?_, fun b hb => ?_⟩
    · rw [State.writePix_pixAt, if_pos rfl, BitVec.toNat_setWidth, Nat.pow_one]
    · rw [State.writePix_pixAt, if_neg hb]
      rfl

/-- Settles O11: the address is inside `TXT`, and the state is that of one answer or one write. -/
theorem textTransactionsReachOneByte : Obligations.TextTransactionsReachOneByte := by
  unfold Obligations.TextTransactionsReachOneByte
  refine fun s a rest hbmc ha => ⟨fun hscript => ?_, fun v hscript => ?_⟩
  · rw [BitVec.ofNat_toNat]
    exact (step_of_script hscript).trans (txtAccess_inside (s := s.take rest) _ hbmc ha)
  · refine ⟨_, (step_of_script hscript).trans (txtAccess_inside _ hbmc ha), rfl, ?_, fun b hb => ?_⟩
    · rw [State.writeTxt_txtAt, if_pos rfl, BitVec.toNat_setWidth]
    · rw [State.writeTxt_txtAt, if_neg hb]
      rfl

/-- Settles O14: by evaluation of the reset state, register by register. -/
theorem resetStateHasTheSpecifiedValues : Obligations.ResetStateHasTheSpecifiedValues := by
  unfold Obligations.ResetStateHasTheSpecifiedValues
  exact ⟨rfl, rfl, rfl, rfl, rfl, rfl, rfl, rfl, rfl, rfl, fun i hi => Vector.getElem_replicate hi,
    fun i hi => Vector.getElem_replicate hi, rfl, rfl, rfl⟩

/-! ### Patterns, digits and identifiers -/

/-- A table pattern with one module flipped is at distance 1 from it, and two table patterns are further apart (R142
item 5, R149). -/
theorem flipped_not_mem_tables {t : Pattern} (ht : t ∈ ltab.toList ++ rtab.toList) (k : Fin 7) :
    t ^^^ BitVec.twoPow 7 k.val ∉ ltab.toList ++ rtab.toList := by
  have hone : onesIn (BitVec.twoPow 7 k.val).toNat = 1 := by revert k; decide
  have hself : onesIn (t ^^^ t).toNat = 0 := by rw [BitVec.xor_self]; rfl
  have hdistance : onesIn (t ^^^ (t ^^^ BitVec.twoPow 7 k.val)).toNat = 1 := by
    rw [← BitVec.xor_assoc, BitVec.xor_self, BitVec.zero_xor, hone]
  intro hmem
  have hne : t ≠ t ^^^ BitVec.twoPow 7 k.val := fun heq => by
    rw [← heq, hself] at hdistance
    exact absurd hdistance (by decide)
  have hfar := two_le_distance t ht _ hmem hne
  omega

/-- A pattern in neither table is unknown to `UREV` (R145). -/
theorem urev_of_not_mem_tables {t : Pattern} (h : t ∉ ltab.toList ++ rtab.toList) : urev t = none := by
  obtain ⟨hleft, hright⟩ := not_or.1 (mt List.mem_append.2 h)
  have hl : lrev t = none := lookup_eq_none.2 fun d hd => hleft (mem_table.2 ⟨d, hd⟩)
  have hr : rrev t = none := lookup_eq_none.2 fun d hd => hright (mem_table.2 ⟨d, hd⟩)
  rw [urev, hl, hr, Option.none_or]

/-- Settles O24: by the distance of two table patterns. -/
theorem flippedPatternIsUnknown : Obligations.FlippedPatternIsUnknown := by
  unfold Obligations.FlippedPatternIsUnknown
  exact fun d k =>
    ⟨urev_of_not_mem_tables (flipped_not_mem_tables (List.mem_append_left _ (mem_table.2 ⟨d, rfl⟩)) k),
      urev_of_not_mem_tables (flipped_not_mem_tables (List.mem_append_right _ (mem_table.2 ⟨d, rfl⟩)) k)⟩

/-- A check digit that `CHK` found is that of the first seven characters of `IDBUF` (R123). -/
theorem payload_of_chkResult {s : State} {d : Digit} (h : chkResult s = .ok d) :
    ∃ p : Vector Digit 7, (∀ i (h : i < 7), s.idbuf[i].toNat = 0x30 + p[i].val) ∧ checkDigit p = d := by
  unfold chkResult at h
  split at h
  next => cases h
  next =>
    split at h
    next => cases h
    next p hp => exact ⟨p, (leadingDigits_idbuf_eq_some (by decide)).1 hp, Except.ok.inj h⟩

/-- Seven digit characters, and the character of their check digit after them, are an identifier (R127, R128). -/
theorem holdsIdentifier_with_checkDigit {s : State} {p : Vector Digit 7} (hlen : s.idlen.toNat = 8)
    (hp : ∀ i (h : i < 7), s.idbuf[i].toNat = 0x30 + p[i].val)
    (hcheck : s.idbuf[7].toNat = 0x30 + (checkDigit p).val) : HoldsIdentifier s (p.push (checkDigit p)) := by
  refine ⟨hlen, fun i hi => ?_, ?_⟩
  · by_cases hlast : i = 7
    · subst hlast
      rw [hcheck, Vector.getElem_push_eq]
    · have hi : i < 7 := by omega
      rw [hp i hi, Vector.getElem_push_lt hi]
  · rw [← checkDigit_payload_val, payload, Vector.pop_push, Vector.getElem_push_eq]

/-- The character of a check digit that `CHK` left in `RES` (R329). -/
theorem checkChar_toNat (d : Digit) : (0x30 + BitVec.ofNat 8 d.val : Byte).toNat = 0x30 + d.val := by revert d; decide

/-- Settles O20: the buffer then holds the seven digits and their check digit, which is an identifier. -/
theorem chkThenValAccepts : Obligations.ChkThenValAccepts := by
  unfold Obligations.ChkThenValAccepts
  intro s t hchk herr
  cases hresult : chkResult s with
  | error k =>
    cases hchk.symm.trans (exec_chk_of_error hresult)
    exact absurd herr (State.raise_err_ne_zero (s := s) k)
  | ok d =>
    cases hchk.symm.trans (exec_chk_of_ok hresult)
    obtain ⟨p, hp, rfl⟩ := payload_of_chkResult hresult
    obtain ⟨-, hval, -⟩ := valAnswersWhetherIdentifier
    refine ⟨_, hval _ _ (holdsIdentifier_with_checkDigit (p := p) rfl (fun i hi => ?_) ?_), rfl, rfl⟩
    · have hother : 7 ≠ i := by omega
      rw [Vector.getElem_set_ne _ _ hother, hp i hi]
    · rw [Vector.getElem_set_self, checkChar_toNat]

/-- Settles O27: with eight digits shown and the check digit right, `DEC` commits their characters. -/
theorem decRecoversTheDigits : Obligations.DecRecoversTheDigits := by
  unfold Obligations.DecRecoversTheDigits
  intro s D hready hshows hcheck
  refine ⟨_, exec_dec_of_shows hready hshows hcheck, fun i hi => ?_, rfl⟩
  rw [digitChars_getElem, charOf_toNat, Nat.add_comm]

end Sys2Proof.Machine

/-! The errors of the bitmap text unit (spec/45_bitmap_codec.md): the dimensions and capacities of `BMW`, and the
dimensions `BMR` reads. -/

namespace Sys2Proof.Machine

open Sys2Proof.Claims

/-! ### The errors of `BMW` -/

/-- With a matrix there, `BMW` fails when the matrix or its text is too large (R233). -/
theorem bmwResult_of_too_large {s : State} (hbmc : s.config.hasBmc = true) (hpixw : s.pixw ≠ 0) (hpixh : s.pixh ≠ 0)
    (h : s.config.pixCap.val < s.pixw.toNat * s.pixh.toNat ∨
      s.config.txtCap.val < textLength s.pixw.toNat s.pixh.toNat) : bmwResult s = .error .capacity := by
  rw [bmwResult, if_neg (by simp [hbmc]), if_neg (not_or.2 ⟨hpixw, hpixh⟩)]
  by_cases hpix : s.config.pixCap.val < s.pixw.toNat * s.pixh.toNat
  · rw [if_pos hpix]
  · rw [if_neg hpix, if_pos (h.resolve_left hpix)]

/-- Settles O32: by the first check of `BMW` that fails; both capacities have the same code. -/
theorem bmwErrorsInOrder : Obligations.BmwErrorsInOrder := by
  unfold Obligations.BmwErrorsInOrder
  refine fun s hbmc => ⟨fun hzero => ?_, fun hpixw hpixh hpix => ?_, fun hpixw hpixh htxt => ?_⟩
  · exact exec_bmw_of_error (bmwResult_of_no_matrix hbmc hzero)
  · exact exec_bmw_of_error (bmwResult_of_too_large hbmc hpixw hpixh (.inl hpix))
  · rw [headerBytes_eq_headerText (toNat_ne_zero hpixw) (toNat_ne_zero hpixh), ← textLength_eq_header] at htxt
    exact exec_bmw_of_error (bmwResult_of_too_large hbmc hpixw hpixh (.inr htxt))

/-! ### The dimensions `BMR` reads -/

theorem head?_any_eq_false {p : Byte → Bool} {x : List Byte} (h : ∀ c, x.head? = some c → p c = false) :
    x.head?.any p = false := by
  cases x with
  | nil => rfl
  | cons c cs => exact h c rfl

theorem isDigit_eq_false_iff {c : Byte} : isDigit c = false ↔ NotDigit c := by
  rw [← Bool.not_eq_true, isDigit_iff_not_notDigit, not_not]

theorem isSpace_eq_false_iff {c : Byte} : isSpace c = false ↔ ¬ IsSpace c := by
  rw [← Bool.not_eq_true, isSpace_iff]

/-- A text that begins with no digit byte begins with no number (R243). -/
theorem readNumber_of_no_digit {x : List Byte} (h : ∀ c, x.head? = some c → NotDigit c) :
    readNumber x = .error .malformedHeader := by
  cases x with
  | nil => rfl
  | cons c cs => rw [readNumber, if_neg (Bool.not_eq_true _ ▸ isDigit_eq_false_iff.2 (h c rfl))]

/-- Phase 2 stops at once at a byte that opens neither whitespace nor a comment (R242). -/
theorem skipBlank_stop {x : List Byte} (h : ∀ c, x.head? = some c → ¬ IsSpace c ∧ c ≠ 0x23) :
    skipBlank false x = x := by
  cases x with
  | nil => rfl
  | cons c cs =>
    obtain ⟨hspace, hhash⟩ := h c rfl
    rw [skipBlank, if_neg (mt isSpace_iff.1 hspace), if_neg hhash]

/-- A comment whose line does not end runs to the end of the text (R242). -/
theorem skipBlank_open_comment {body : List Byte} (h : ∀ c ∈ body, c ≠ 0x0A) : skipBlank true body = [] := by
  induction body with
  | nil => rfl
  | cons c body ih =>
    obtain ⟨hc, hbody⟩ := List.forall_mem_cons.1 h
    rw [skipBlank, if_neg hc, ih hbody]

/-- Phase 2 leaves a text that begins with a number as it is (R242, R243). -/
theorem skipBlank_number {w x : List Byte} {W : Nat} (hw : IsNumber w W) (hx : w <+: x) : skipBlank false x = x := by
  obtain ⟨hne, hdigits, -⟩ := isNumber_iff.1 hw
  obtain ⟨d, ds, rfl⟩ := List.exists_cons_of_ne_nil hne
  obtain ⟨rest, rfl⟩ := hx
  exact skipBlank_digit (hdigits d List.mem_cons_self) _

/-- A number with no digit byte after it is read whole (R243). -/
theorem readNumber_of_isNumber {w rest : List Byte} {W : Nat} (hw : IsNumber w W)
    (hrest : ∀ c, rest.head? = some c → NotDigit c) : readNumber (w ++ rest) = .ok (W, rest) := by
  obtain ⟨hne, hdigits, rfl⟩ := isNumber_iff.1 hw
  exact readNumber_run hne hdigits (head?_any_eq_false fun c hc => isDigit_eq_false_iff.2 (hrest c hc))

/-- Phase 3 fails without a width (R243). -/
theorem readDimensions_of_no_width {x : List Byte} (h : ∀ c, x.head? = some c → NotDigit c) :
    readDimensions x = .error .malformedHeader := by
  rw [readDimensions, readNumber_of_no_digit h]

/-- Phase 3 fails on a width that whitespace does not close (R243). -/
theorem readDimensions_of_open_width {w rest : List Byte} {W : Nat} (hw : IsNumber w W)
    (hrest : ∀ c, rest.head? = some c → NotDigit c ∧ ¬ IsSpace c) :
    readDimensions (w ++ rest) = .error .malformedHeader := by
  rw [readDimensions, readNumber_of_isNumber hw fun c hc => (hrest c hc).1]
  cases rest with
  | nil => rfl
  | cons c cs => exact if_pos (isSpace_eq_false_iff.2 (hrest c rfl).2)

/-- What phase 3 makes of the height and of what follows it, once the width is read (R243). -/
def finishDimensions (W : Nat) : Nat × List Byte → Except ErrorKind (Nat × Nat × List Byte)
  | (H, after) =>
    if after.head?.any (fun c => !isSpace c) then .error .malformedHeader
    else if W = 0 ∨ H = 0 then .error .malformedHeader
    else .ok (W, H, after)

/-- A height that neither whitespace nor the end closes is an error (R243). -/
theorem finishDimensions_of_open_height {d : Byte} (hd : ¬ IsSpace d) (W H : Nat) (rest : List Byte) :
    finishDimensions W (H, d :: rest) = .error .malformedHeader := by
  simp [finishDimensions, isSpace_eq_false_iff.2 hd]

/-- Of two numbers that are closed, both have to be positive (R243). -/
theorem finishDimensions_of_delimited {area : List Byte} (harea : AreaDelimited area) (W H : Nat) :
    finishDimensions W (H, area) = if W = 0 ∨ H = 0 then .error .malformedHeader else .ok (W, H, area) := by
  have hclosed : area.head?.any (fun c => !isSpace c) = false :=
    head?_any_eq_false fun c hc => by rw [isSpace_iff.2 (harea c hc), Bool.not_true]
  simp [finishDimensions, hclosed]

/-- After a width and the whitespace that closes it, phase 3 reads the height (R243). -/
theorem readDimensions_of_width {w sp rest : List Byte} {W : Nat} (hw : IsNumber w W) (hsp : sp ≠ [])
    (hspaces : ∀ c ∈ sp, IsSpace c) (hrest : ∀ c, rest.head? = some c → ¬ IsSpace c) :
    readDimensions (w ++ sp ++ rest) = (readNumber rest).bind (finishDimensions W) := by
  obtain ⟨c, sp, rfl⟩ := List.exists_cons_of_ne_nil hsp
  obtain ⟨hc, hspaces⟩ := List.forall_mem_cons.1 hspaces
  have hnodigit : ∀ d, (c :: sp ++ rest).head? = some d → NotDigit d := fun d hd => by
    cases hd
    exact isDigit_eq_false_iff.1 (isSpace_not_isDigit (isSpace_iff.2 hc))
  have hdrop : (sp ++ rest).dropWhile isSpace = rest :=
    (takeWhile_append_stop (fun d hd => isSpace_iff.2 (hspaces d hd))
      (head?_any_eq_false fun d hd => isSpace_eq_false_iff.2 (hrest d hd))).2
  rw [List.append_assoc, readDimensions, readNumber_of_isNumber hw hnodigit]
  simp only [List.cons_append, isSpace_iff.2 hc, Bool.true_eq_false, if_false, hdrop]
  cases readNumber rest <;> rfl

/-- No digit byte is whitespace, so a number begins with no whitespace. -/
theorem not_isSpace_of_isNumber {h rest : List Byte} {H : Nat} (hh : IsNumber h H) :
    ∀ c, (h ++ rest).head? = some c → ¬ IsSpace c := by
  obtain ⟨hne, hdigits, -⟩ := isNumber_iff.1 hh
  obtain ⟨d, ds, rfl⟩ := List.exists_cons_of_ne_nil hne
  intro c hc
  cases hc
  exact isSpace_eq_false_iff.1 (isDigit_not_isSpace (hdigits d List.mem_cons_self))

/-- After both numbers, phase 3 looks at what follows them and at their values (R243). -/
theorem readDimensions_of_numbers {w sp h rest : List Byte} {W H : Nat} (hw : IsNumber w W) (hsp : sp ≠ [])
    (hspaces : ∀ c ∈ sp, IsSpace c) (hh : IsNumber h H) (hrest : ∀ c, rest.head? = some c → NotDigit c) :
    readDimensions (w ++ sp ++ h ++ rest) = finishDimensions W (H, rest) := by
  rw [List.append_assoc, readDimensions_of_width hw hsp hspaces (not_isSpace_of_isNumber hh),
    readNumber_of_isNumber hh hrest]
  rfl

/-- What `BMR` makes of the dimensions and of the text after them: the capacity test, then phase 4 (R240, R243). -/
def readMatrix (cap : Nat) : Nat × Nat × List Byte → Except ErrorKind Matrix
  | (W, H, after) =>
    if W * H > cap then .error .capacity
    else (readPixels (W * H) after).map fun bs => { width := W, height := H, cells := bs }

/-- After the magic token and blank and comment lines, phase 3 decides on the rest, and then the capacity and phase 4
(R240 to R242). -/
theorem bmrResult_of_blankLines {s : State} {c : Byte} {run tail : List Byte}
    (hx : HoldsText s ([0x50, 0x31, c] ++ run ++ tail)) (hc : IsSpace c) (hrun : BlankLines run) :
    bmrResult s = (readDimensions (skipBlank false tail)).bind (readMatrix s.config.pixCap.val) := by
  have hspace : isSpace c = true := isSpace_iff.2 hc
  have hmagic : afterMagic ([0x50, 0x31, c] ++ run ++ tail) = .ok (c :: run ++ tail) := by
    simp [afterMagic, hspace]
  rw [bmrResult_of_holdsText hx, parseText, hmagic]
  simp only [skipBlank_run (.space hspace (blankRun_of_blankLines hrun)) tail]
  cases readDimensions (skipBlank false tail) with
  | error k => rfl
  | ok d =>
    obtain ⟨W, H, after⟩ := d
    simp only [Except.bind, readMatrix]
    cases readPixels (W * H) after <;> rfl

/-- An error of phase 3 is the error of `BMR` (R243). -/
theorem exec_bmr_of_dimensions_error {s : State} {c : Byte} {run tail : List Byte} {k : ErrorKind}
    (hx : HoldsText s ([0x50, 0x31, c] ++ run ++ tail)) (hc : IsSpace c) (hrun : BlankLines run)
    (h : readDimensions (skipBlank false tail) = .error k) : exec .bmr s = .next (failed s k.code) := by
  refine exec_bmr_of_error ?_
  rw [bmrResult_of_blankLines hx hc hrun, h]
  rfl

/-- Dimensions that ask for more than `PIX` holds are an error of `BMR` (R243). -/
theorem exec_bmr_of_dimensions_too_large {s : State} {c : Byte} {run tail after : List Byte} {W H : Nat}
    (hx : HoldsText s ([0x50, 0x31, c] ++ run ++ tail)) (hc : IsSpace c) (hrun : BlankLines run)
    (h : readDimensions (skipBlank false tail) = .ok (W, H, after)) (hcap : s.config.pixCap.val < W * H) :
    exec .bmr s = .next (failed s 8) := by
  refine exec_bmr_of_error (k := .capacity) ?_
  rw [bmrResult_of_blankLines hx hc hrun, h]
  exact if_pos hcap

/-- What follows a closed height begins with no digit. -/
theorem notDigit_of_areaDelimited {area : List Byte} (harea : AreaDelimited area) :
    ∀ c, area.head? = some c → NotDigit c :=
  fun c hc => isDigit_eq_false_iff.1 (isSpace_not_isDigit (isSpace_iff.2 (harea c hc)))

/-- Settles O35: phase 2 leaves the text at the first byte that is neither blank nor comment, and phase 3 fails at the
first of the two numbers, or of what closes them, that is not there. -/
theorem bmrChecksTheDimensions : Obligations.BmrChecksTheDimensions := by
  unfold Obligations.BmrChecksTheDimensions
  constructor
  · intro s hx
    have hparse : parseText s.config.pixCap.val [0x50, 0x31] = .error .malformedHeader := rfl
    exact exec_bmr_of_error ((bmrResult_of_holdsText hx).trans hparse)
  intro s c run tail hx hc hrun
  have hmalformed (h : readDimensions (skipBlank false tail) = .error .malformedHeader) :
      exec .bmr s = .next (failed s 2) := exec_bmr_of_dimensions_error hx hc hrun h
  refine ⟨fun hstart => hmalformed ?_, ?_, ?_, ?_, ?_, ?_⟩
  · rw [skipBlank_stop fun d hd => (hstart d hd).2]
    exact readDimensions_of_no_width fun d hd => (hstart d hd).1
  · rintro body rfl hbody
    have hskip : skipBlank false (0x23 :: body) = [] := skipBlank_open_comment hbody
    refine hmalformed ?_
    rw [hskip]
    exact readDimensions_of_no_width nofun
  · rintro w W rest rfl hw hrest
    refine hmalformed ?_
    rw [skipBlank_number hw (by simp)]
    exact readDimensions_of_open_width hw hrest
  · rintro w W sp rest rfl hw hsp hspaces hrest
    refine hmalformed ?_
    rw [skipBlank_number hw (by simp), readDimensions_of_width hw hsp hspaces fun d hd => (hrest d hd).2,
      readNumber_of_no_digit fun d hd => (hrest d hd).1]
    rfl
  · rintro w W sp h H d rest rfl hw hsp hspaces hh hdigit hspace
    have hrest : ∀ e, (d :: rest).head? = some e → NotDigit e := fun e he => by cases he; exact hdigit
    refine hmalformed ?_
    rw [skipBlank_number hw (by simp), readDimensions_of_numbers hw hsp hspaces hh hrest]
    exact finishDimensions_of_open_height hspace W H rest
  · rintro w W sp h H area rfl hw hsp hspaces hh harea
    have hread : readDimensions (skipBlank false (w ++ sp ++ h ++ area)) =
        if W = 0 ∨ H = 0 then .error .malformedHeader else .ok (W, H, area) := by
      rw [skipBlank_number hw (by simp),
        readDimensions_of_numbers hw hsp hspaces hh (notDigit_of_areaDelimited harea),
        finishDimensions_of_delimited harea]
    refine ⟨fun hzero => ?_, fun hW hH hcap => ?_⟩
    · rw [if_pos hzero] at hread
      exact hmalformed hread
    · rw [if_neg (not_or.2 ⟨hW, hH⟩)] at hread
      exact exec_bmr_of_dimensions_too_large hx hc hrun hread hcap

end Sys2Proof.Machine

/-! All commands at once (spec/10_state.md R43): what each writes and reads, what a repeated command does, and which
steps change the operands. -/

namespace Sys2Proof.Machine

open Sys2Proof.Claims

/-! ### What a command writes -/

/-- A matrix has as many cells as its dimensions say, and they fit a `PIX` of the given capacity. -/
def Matrix.Fits (M : Matrix) (cap : Nat) : Prop :=
  M.width ≠ 0 ∧ M.height ≠ 0 ∧ M.cells.length = M.width * M.height ∧ M.width * M.height ≤ cap

/-- The matrix `ENC` draws fits `PIX` (R176). -/
theorem encResult_fits {s : State} {M : Matrix} (h : encResult s = .ok M) : M.Fits s.config.pixCap.val := by
  obtain ⟨D, -, hmodw, hbarh, hcap, rfl⟩ := encResult_eq_ok.1 h
  exact ⟨(s.drawWidth_pos hmodw).ne', (s.drawHeight_pos hbarh).ne',
    (s.drawing_cells_length D).trans (Nat.mul_comm _ _), hcap⟩

/-- The matrix `BMR` reads fits `PIX` (R243). -/
theorem bmrResult_fits {s : State} {M : Matrix} (h : bmrResult s = .ok M) : M.Fits s.config.pixCap.val := by
  obtain ⟨-, -, hparse⟩ := bmrResult_eq_ok.1 h
  exact parseText_size hparse

theorem Matrix.Fits.cells_length_le {M : Matrix} {cap : Nat} (h : M.Fits cap) : M.cells.length ≤ cap := by
  obtain ⟨-, -, hcells, hcap⟩ := h
  exact hcells.trans_le hcap

/-- After the commit of a matrix that fits, `PIXW`·`PIXH` is its number of cells (R248). -/
theorem Matrix.Fits.area_setMatrix {s : State} {M : Matrix} (h : M.Fits s.config.pixCap.val) :
    (s.setMatrix M).pixw.toNat * (s.setMatrix M).pixh.toNat = M.cells.length := by
  obtain ⟨hW, hH, hcells, hcap⟩ := h
  obtain ⟨hpixw, hpixh⟩ := s.setMatrix_size_toNat hW hH hcap
  rw [hpixw, hpixh, hcells]

/-- No command writes an input of a command, the configuration or the host's side (R43). -/
theorem exec_keeps_operands {i : Instr} {s t : State} (h : exec i s = .next t) :
    t.idlen = s.idlen ∧ t.idbuf = s.idbuf ∧ t.modw = s.modw ∧ t.barh = s.barh ∧ t.margin = s.margin ∧
      t.config = s.config ∧ t.script = s.script ∧ t.reply = s.reply ∧ t.draws = s.draws := by
  rcases exec_cases h with ⟨k, rfl⟩ | ⟨-, v, rfl, -⟩ | ⟨-, M, -, rfl⟩ | ⟨-, M, -, rfl⟩ | ⟨-, d, -, rfl⟩ | ⟨-, x, -, rfl⟩
  all_goals exact ⟨rfl, rfl, rfl, rfl, rfl, rfl, rfl, rfl, rfl⟩

/-- Only the seven scalar commands write `RES` (R43). -/
theorem exec_keeps_res {i : Instr} {s t : State} (h : exec i s = .next t) (hi : i ∈ [.enc, .dec, .bmw, .bmr]) :
    t.res = s.res := by
  rcases exec_cases h with ⟨k, rfl⟩ | ⟨hscalar, -⟩ | ⟨-, M, -, rfl⟩ | ⟨-, M, -, rfl⟩ | ⟨-, d, -, rfl⟩ | ⟨-, x, -, rfl⟩
  case inr.inl => exact absurd hi hscalar
  all_goals rfl

/-- Only `DEC` writes `OUTID` (R43). -/
theorem exec_keeps_outid {i : Instr} {s t : State} (h : exec i s = .next t) (hi : i ≠ .dec) : t.outid = s.outid := by
  rcases exec_cases h with ⟨k, rfl⟩ | ⟨-, v, rfl, -⟩ | ⟨-, M, -, rfl⟩ | ⟨-, M, -, rfl⟩ | ⟨hdec, -⟩ | ⟨-, x, -, rfl⟩
  case inr.inr.inr.inr.inl => exact absurd hdec hi
  all_goals rfl

/-- Only `ENC` and `BMR` write the matrix (R43). -/
theorem exec_keeps_matrix {i : Instr} {s t : State} (h : exec i s = .next t) (henc : i ≠ .enc) (hbmr : i ≠ .bmr) :
    t.pixw = s.pixw ∧ t.pixh = s.pixh ∧ ∀ a, t.pixAt a = s.pixAt a := by
  rcases exec_cases h with ⟨k, rfl⟩ | ⟨-, v, rfl, -⟩ | ⟨hi, -⟩ | ⟨hi, -⟩ | ⟨-, d, -, rfl⟩ | ⟨-, x, -, rfl⟩
  case inr.inr.inl => exact absurd hi henc
  case inr.inr.inr.inl => exact absurd hi hbmr
  all_goals exact ⟨rfl, rfl, fun _ => rfl⟩

/-- Only `BMW` writes the text (R43). -/
theorem exec_keeps_text {i : Instr} {s t : State} (h : exec i s = .next t) (hi : i ≠ .bmw) :
    t.txtlen = s.txtlen ∧ ∀ a, t.txtAt a = s.txtAt a := by
  rcases exec_cases h with ⟨k, rfl⟩ | ⟨-, v, rfl, -⟩ | ⟨-, M, -, rfl⟩ | ⟨-, M, -, rfl⟩ | ⟨-, d, -, rfl⟩ | ⟨hbmw, -⟩
  case inr.inr.inr.inr.inr => exact absurd hbmw hi
  all_goals exact ⟨rfl, fun _ => rfl⟩

/-- `ENC` writes no cell beyond the matrix it is asked to draw (R43, R328). -/
theorem exec_enc_keeps_beyond {s t : State} (h : exec .enc s = .next t) {a : Nat}
    (ha : drawnWidth s * drawnHeight s ≤ a) : t.pixAt a = s.pixAt a := by
  cases (exec_enc s).symm.trans h
  rcases State.conclude_cases (s := s) (encResult s) State.setMatrix with ⟨k, -, ht⟩ | ⟨M, hM, ht⟩
  · rw [ht, State.raise_pixAt]
  · obtain ⟨D, -, -, -, -, rfl⟩ := encResult_eq_ok.1 hM
    rw [drawnWidth_eq, drawnHeight_eq] at ha
    rw [ht, State.done_pixAt, State.setMatrix_drawing_pixAt_beyond s D ha]

/-- `BMR` writes no cell beyond the matrix it reads (R43, R246). -/
theorem exec_bmr_keeps_beyond {s t : State} (h : exec .bmr s = .next t) {a : Nat}
    (ha : t.pixw.toNat * t.pixh.toNat ≤ a) : t.pixAt a = s.pixAt a := by
  cases (exec_bmr s).symm.trans h
  rcases State.conclude_cases (s := s) (bmrResult s) State.setMatrix with ⟨k, -, ht⟩ | ⟨M, hM, ht⟩
  · rw [ht, State.raise_pixAt]
  · rw [ht, State.done_pixw, State.done_pixh, (bmrResult_fits hM).area_setMatrix] at ha
    rw [ht, State.done_pixAt, State.setMatrix_pixAt, dif_neg ha.not_gt]

/-- The text that `BMW` writes has a length that `TXTLEN` holds (R248). -/
theorem setText_txtlen_of_bmwResult {s : State} {x : List Byte} (h : bmwResult s = .ok x) :
    (s.setText x).txtlen.toNat = x.length := by
  obtain ⟨hready, rfl⟩ := bmwResult_eq_ok_iff_ready.1 h
  exact s.setText_txtlen_toNat (State.matrixText_fits hready)

/-- `BMW` writes no byte beyond its text (R43, R233). -/
theorem exec_bmw_keeps_beyond {s t : State} (h : exec .bmw s = .next t) {a : Nat} (ha : t.txtlen.toNat ≤ a) :
    t.txtAt a = s.txtAt a := by
  cases (exec_bmw s).symm.trans h
  rcases State.conclude_cases (s := s) (bmwResult s) State.setText with ⟨k, -, ht⟩ | ⟨x, hx, ht⟩
  · rw [ht, State.raise_txtAt]
  · rw [ht, State.done_txtlen, setText_txtlen_of_bmwResult hx] at ha
    rw [ht, State.done_txtAt, State.setText_txtAt, dif_neg ha.not_gt]

/-- Settles O38: one lemma for each kind of state that a command may write. -/
theorem commandsWriteOnlyTheirState : Obligations.CommandsWriteOnlyTheirState := by
  unfold Obligations.CommandsWriteOnlyTheirState
  refine fun i s t h => ⟨exec_keeps_operands h, exec_keeps_res h, exec_keeps_outid h, exec_keeps_matrix h,
    exec_keeps_text h, ?_, ?_, ?_⟩
  · rintro rfl a
    exact exec_enc_keeps_beyond h
  · rintro rfl a
    exact exec_bmr_keeps_beyond h
  · rintro rfl a
    exact exec_bmw_keeps_beyond h

/-! ### What a command reads -/

/-- Two runs of a command with one result end with the same error, and on success commit the same value. -/
theorem exec_same_result {α : Type} {i : Instr} {s u t v : State} {r : Except ErrorKind α} {commit : State → α → State}
    (hs : exec i s = .next (s.conclude r commit)) (hu : exec i u = .next (u.conclude r commit))
    (ht : exec i s = .next t) (hv : exec i u = .next v) :
    t.err = v.err ∧ (t.err = 0 → ∃ x, r = .ok x ∧ t = (commit s x).done ∧ v = (commit u x).done) := by
  cases hs.symm.trans ht
  cases hu.symm.trans hv
  cases r with
  | error k => exact ⟨rfl, fun herr => absurd herr (State.raise_err_ne_zero (s := s) k)⟩
  | ok x => exact ⟨rfl, fun _ => ⟨x, rfl, rfl, rfl⟩⟩

/-- Two runs of a command end alike: with the same error, and on success with the same value in what the command
writes (R43). -/
def EndAlike (i : Instr) (t v : State) : Prop :=
  t.err = v.err ∧
  (t.err = 0 →
    (i ∉ [.enc, .dec, .bmw, .bmr] → t.res = v.res) ∧
    (i = .dec → t.outid = v.outid) ∧
    (i = .enc ∨ i = .bmr → t.pixw = v.pixw ∧ t.pixh = v.pixh ∧
      ∀ a, a < t.pixw.toNat * t.pixh.toNat → t.pixAt a = v.pixAt a) ∧
    (i = .bmw → t.txtlen = v.txtlen ∧ ∀ a, a < t.txtlen.toNat → t.txtAt a = v.txtAt a))

section Results

variable {α : Type} {i : Instr} {s u t v : State}

/-- Scalar commands with one result end alike. -/
theorem endAlike_of_scalar (hi : i ∉ [.enc, .dec, .bmw, .bmr]) {r : Except ErrorKind α} {f : α → BitVec 8}
    (hs : exec i s = .next (s.conclude r fun s x => s.setRes (f x)))
    (hu : exec i u = .next (u.conclude r fun s x => s.setRes (f x)))
    (ht : exec i s = .next t) (hv : exec i u = .next v) : EndAlike i t v := by
  obtain ⟨herr, hok⟩ := exec_same_result hs hu ht hv
  obtain ⟨henc, hdec, hbmw, hbmr⟩ : i ≠ .enc ∧ i ≠ .dec ∧ i ≠ .bmw ∧ i ≠ .bmr := by simpa using hi
  refine ⟨herr, fun h => ⟨fun _ => ?_, fun h => absurd h hdec, fun h => absurd h (not_or.2 ⟨henc, hbmr⟩),
    fun h => absurd h hbmw⟩⟩
  obtain ⟨x, -, rfl, rfl⟩ := hok h
  rfl

/-- `ENC` and `BMR` with one result end alike. -/
theorem endAlike_of_matrix (hi : i ∈ [.enc, .bmr]) {r : Except ErrorKind Matrix}
    (hfits : ∀ M, r = .ok M → M.Fits s.config.pixCap.val)
    (hs : exec i s = .next (s.conclude r State.setMatrix)) (hu : exec i u = .next (u.conclude r State.setMatrix))
    (ht : exec i s = .next t) (hv : exec i u = .next v) : EndAlike i t v := by
  obtain ⟨herr, hok⟩ := exec_same_result hs hu ht hv
  refine ⟨herr, fun h => ⟨fun hscalar => ?_, fun hdec => ?_, fun _ => ?_, fun hbmw => ?_⟩⟩
  · have hsub : [Instr.enc, .bmr] ⊆ [.enc, .dec, .bmw, .bmr] := by decide
    exact absurd (hsub hi) hscalar
  · exact absurd (hdec ▸ hi) (by decide)
  · obtain ⟨M, hM, rfl, rfl⟩ := hok h
    refine ⟨rfl, rfl, fun a ha => ?_⟩
    rw [State.done_pixw, State.done_pixh, (hfits M hM).area_setMatrix] at ha
    rw [State.done_pixAt, State.done_pixAt, State.setMatrix_pixAt, State.setMatrix_pixAt, dif_pos ha, dif_pos ha]
  · exact absurd (hbmw ▸ hi) (by decide)

end Results

/-- The leading digits of a string depend on its leading characters. -/
theorem leadingDigits_congr {cs ds : List Byte} {n : Nat} (h : ∀ i, i < n → cs[i]? = ds[i]?) :
    leadingDigits cs n = leadingDigits ds n := by
  refine Option.ext fun p => ?_
  rw [leadingDigits_eq_some, leadingDigits_eq_some]
  exact forall₂_congr fun i hi => by rw [h i hi]

/-- `CHK` reads `IDLEN` and the first seven characters (R43). -/
theorem chkResult_congr {s u : State} (hlen : s.idlen = u.idlen) (h : ∀ k (h : k < 7), s.idbuf[k] = u.idbuf[k]) :
    chkResult s = chkResult u := by
  have hdigits : leadingDigits s.idbuf.toList 7 = leadingDigits u.idbuf.toList 7 := leadingDigits_congr fun i hi => by
    have hi' : i < 15 := by omega
    simp [hi', h i hi]
  rw [chkResult, chkResult, hlen, hdigits]

/-- The identifier depends on `IDLEN` and the first eight characters (R30, R43). -/
theorem identifierDigits_congr {s u : State} (hlen : s.idlen = u.idlen)
    (h : ∀ k (h : k < 8), s.idbuf[k] = u.idbuf[k]) :
    identifierDigits s.identifier = identifierDigits u.identifier := by
  refine Option.ext fun D => ?_
  rw [identifierDigits_identifier_eq_some, identifierDigits_identifier_eq_some, HoldsIdentifier, HoldsIdentifier, hlen]
  exact and_congr_right fun _ => and_congr_left fun _ => forall₂_congr fun i hi => by rw [h i hi]

/-- `ENC` reads the identifier and the geometry (R43). -/
theorem encResult_congr {s u : State} (hconfig : s.config = u.config)
    (hid : identifierDigits s.identifier = identifierDigits u.identifier) (hmodw : s.modw = u.modw)
    (hbarh : s.barh = u.barh) (hmargin : s.margin = u.margin) : encResult s = encResult u := by
  have hwidth : s.drawWidth = u.drawWidth := by rw [State.drawWidth, State.drawWidth, hconfig, hmodw, hmargin]
  have hheight : s.drawHeight = u.drawHeight := by rw [State.drawHeight, State.drawHeight, hbarh, hmargin]
  have hdrawing : s.drawing = u.drawing := funext fun D => by
    rw [State.drawing, State.drawing, hwidth, hheight, hconfig, hmodw, hmargin]
  rw [encResult, encResult, hid, hmodw, hbarh, hconfig, hwidth, hheight, hdrawing]

/-- A matrix in row-major order depends on the cells inside it. -/
theorem raster_congr {α : Type} {W H : Nat} {f g : Nat → Nat → α}
    (h : ∀ x y, x < W → y < H → f x y = g x y) : raster W H f = raster W H g :=
  List.flatMap_congr fun y hy => List.map_congr_left fun x hx => h x y (List.mem_range.1 hx) (List.mem_range.1 hy)

/-- The text of a matrix depends on its dimensions and its cells (R233). -/
theorem matrixText_congr {W H : Nat} {f g : Nat → Bit} (h : ∀ a, a < W * H → f a = g a) :
    matrixText W H f = matrixText W H g := by
  rw [matrixText, matrixText, raster_congr fun x y hx hy => ?_]
  have ha : y * W + x < W * H := by
    have hrow := Nat.mul_le_mul_left W hy
    rw [Nat.mul_succ, Nat.mul_comm W y] at hrow
    omega
  rw [h _ ha]

/-- `BMW` reads the matrix (R43). -/
theorem bmwResult_congr {s u : State} (hconfig : s.config = u.config) (hpixw : s.pixw = u.pixw)
    (hpixh : s.pixh = u.pixh) (hcells : ∀ a, a < s.pixw.toNat * s.pixh.toNat → s.pixAt a = u.pixAt a) :
    bmwResult s = bmwResult u := by
  rw [bmwResult, bmwResult, matrixText_congr hcells, hconfig, hpixw, hpixh]

/-- `BMR` reads the text (R43). -/
theorem bmrResult_congr {s u : State} (hconfig : s.config = u.config) (htxtlen : s.txtlen = u.txtlen)
    (hbytes : ∀ a, a < s.txtlen.toNat → s.txtAt a = u.txtAt a) : bmrResult s = bmrResult u := by
  have htext : s.text = u.text := by
    rw [State.text, State.text, ← htxtlen]
    exact List.map_congr_left fun a ha => hbytes a (List.mem_range.1 ha)
  rw [bmrResult, bmrResult, hconfig, htxtlen, htext]

/-- `BMW` with one result in two states ends alike in them. -/
theorem endAlike_bmw {s u t v : State} (h : bmwResult s = bmwResult u) (ht : exec .bmw s = .next t)
    (hv : exec .bmw u = .next v) : EndAlike .bmw t v := by
  obtain ⟨herr, hok⟩ := exec_same_result (exec_bmw s) (h ▸ exec_bmw u) ht hv
  refine ⟨herr, fun herr => ⟨fun hscalar => absurd (by decide) hscalar, nofun, by simp, fun _ => ?_⟩⟩
  obtain ⟨x, hx, rfl, rfl⟩ := hok herr
  refine ⟨rfl, fun a ha => ?_⟩
  rw [State.done_txtlen, setText_txtlen_of_bmwResult hx] at ha
  rw [State.done_txtAt, State.done_txtAt, State.setText_txtAt, State.setText_txtAt, dif_pos ha, dif_pos ha]

/-- Settles O39: what two states agree on determines the result, and the result what is written. -/
theorem commandsReadOnlyTheirState : Obligations.CommandsReadOnlyTheirState := by
  unfold Obligations.CommandsReadOnlyTheirState
  intro i s u t v hagree ht hv
  cases i with
  | chk =>
    obtain ⟨-, hlen, hchars⟩ := hagree
    exact endAlike_of_scalar (by decide) (exec_chk s) (chkResult_congr hlen hchars ▸ exec_chk u) ht hv
  | val =>
    obtain ⟨-, hlen, hchars⟩ := hagree
    have hvalid : valid s.identifier = valid u.identifier := by
      rw [valid, valid, identifierDigits_congr hlen hchars]
    exact endAlike_of_scalar (by decide) (r := .ok (valid s.identifier)) (f := resVerdict) rfl (hvalid ▸ rfl) ht hv
  | lpat d => exact endAlike_of_scalar (by simp) (exec_lpat d s) (exec_lpat d u) ht hv
  | rpat d => exact endAlike_of_scalar (by simp) (exec_rpat d s) (exec_rpat d u) ht hv
  | lrev p => exact endAlike_of_scalar (by simp) (r := .ok (lrev p)) (f := resFound) rfl rfl ht hv
  | rrev p => exact endAlike_of_scalar (by simp) (r := .ok (rrev p)) (f := resFound) rfl rfl ht hv
  | urev p => exact endAlike_of_scalar (by simp) (r := .ok (urev p)) (f := resFound) rfl rfl ht hv
  | enc =>
    obtain ⟨hconfig, hlen, hchars, hmodw, hbarh, hmargin⟩ := hagree
    have hresult := encResult_congr hconfig (identifierDigits_congr hlen hchars) hmodw hbarh hmargin
    exact endAlike_of_matrix (by decide) (fun M => encResult_fits) (exec_enc s) (hresult ▸ exec_enc u) ht hv
  | dec =>
    obtain ⟨herr, houtid⟩ := decIgnoresUnsampledPixels s u t v hagree ht hv
    exact ⟨herr, fun h => ⟨fun hscalar => absurd (by decide) hscalar, fun _ => houtid h, by simp, nofun⟩⟩
  | bmw =>
    obtain ⟨hconfig, hpixw, hpixh, hcells⟩ := hagree
    exact endAlike_bmw (bmwResult_congr hconfig hpixw hpixh hcells) ht hv
  | bmr =>
    obtain ⟨hconfig, htxtlen, hbytes⟩ := hagree
    have hresult := bmrResult_congr hconfig htxtlen hbytes
    exact endAlike_of_matrix (by decide) (fun M => bmrResult_fits) (exec_bmr s) (hresult ▸ exec_bmr u) ht hv

/-! ### A failed command, issued again -/

/-- A failed command changed nothing that it reads (R43, R280). -/
theorem agreeOnReads_raise (i : Instr) (s : State) (k : ErrorKind) : AgreeOnReads i s (s.raise k) := by
  refine ⟨rfl, ?_⟩
  cases i with
  | chk | val => exact ⟨rfl, fun _ _ => rfl⟩
  | lpat | rpat | lrev | rrev | urev => trivial
  | enc => exact ⟨rfl, fun _ _ => rfl, rfl, rfl, rfl⟩
  | dec => exact ⟨rfl, rfl, rfl, rfl, fun _ _ _ _ => rfl⟩
  | bmw => exact ⟨rfl, rfl, fun _ _ => rfl⟩
  | bmr => exact ⟨rfl, fun _ _ => rfl⟩

/-- Raising a kind twice leaves what raising it once does: its bit of `ESTICKY` is set already (R280). -/
theorem State.raise_raise (s : State) (k : ErrorKind) : (s.raise k).raise k = s.raise k := by
  have hsticky : s.esticky ||| k.stickyBit ||| k.stickyBit = s.esticky ||| k.stickyBit := by
    rw [BitVec.or_assoc, BitVec.or_self]
  exact congrArg (fun e => { s.raise k with esticky := e }) hsticky

/-- Settles O40: the command reads in the state it left what it read before, so it fails with the same kind. -/
theorem failedCommandFailsAgain : Obligations.FailedCommandFailsAgain := by
  unfold Obligations.FailedCommandFailsAgain
  intro i s t ht herr
  obtain ⟨k, rfl⟩ | ⟨hzero, -⟩ := exec_raise_or_keeps_esticky ht
  · obtain ⟨v, hv⟩ := exec_has_next i (s.raise k)
    obtain ⟨hsame, -⟩ := commandsReadOnlyTheirState i s (s.raise k) (s.raise k) v (agreeOnReads_raise i s k) ht hv
    obtain ⟨l, rfl⟩ | ⟨hzero, -⟩ := exec_raise_or_keeps_esticky hv
    · obtain rfl : k = l := ErrorKind.ofNat_code_injective hsame
      rw [hv, State.raise_raise]
    · exact absurd (hsame.trans hzero) herr
  · exact absurd hzero herr

/-! ### What changes the operands -/

/-- The geometry and the input identifier are the same in two states (R26 to R30). -/
def SameOperands (s t : State) : Prop :=
  t.modw = s.modw ∧ t.barh = s.barh ∧ t.margin = s.margin ∧ t.idlen = s.idlen ∧ t.idbuf = s.idbuf

/-- No transaction changes the configuration, and the operands change by a `Reset` or a register write only (R26 to
R31). -/
theorem transact_operands {tr : Transaction} {s t : State} (h : transact tr s = .next t) :
    t.config = s.config ∧ (SameOperands s t ∨ tr = .reset ∨ ∃ n v, tr = .regWrite n v ∧ n ≠ 0x00) := by
  rcases transact_cases h with ⟨v, rfl⟩ | ⟨n, v, -, -, rfl⟩ | ⟨n, v, r, htr, hn, -, rfl⟩ |
    ⟨v, -, rfl | ⟨i, -, hexec⟩⟩ | ⟨a, v, -, -, rfl⟩ | ⟨a, v, -, -, -, rfl⟩ | ⟨htr, rfl⟩
  case inr.inr.inl => exact ⟨by cases r <;> rfl, .inr (.inr ⟨n, v, htr, hn⟩)⟩
  case inr.inr.inr.inl.inr =>
    obtain ⟨hidlen, hidbuf, hmodw, hbarh, hmargin, hconfig, -⟩ := exec_keeps_operands hexec
    exact ⟨hconfig, .inl ⟨hmodw, hbarh, hmargin, hidlen, hidbuf⟩⟩
  case inr.inr.inr.inr.inr.inr => exact ⟨rfl, .inr (.inl htr)⟩
  all_goals exact ⟨rfl, .inl ⟨rfl, rfl, rfl, rfl, rfl⟩⟩

/-- Settles O41: an idle step changes nothing, and the other steps are one transaction. -/
theorem onlyTheHostChangesOperands : Obligations.OnlyTheHostChangesOperands := by
  unfold Obligations.OnlyTheHostChangesOperands
  intro s t h
  obtain ⟨-, rfl⟩ | ⟨tr, rest, hscript, htr⟩ := step_cases h
  · simp
  · obtain ⟨hconfig, hcases⟩ := transact_operands htr
    refine ⟨hconfig, fun hchanged => ⟨rest, ?_⟩⟩
    obtain ⟨hmodw, hbarh, hmargin, hidlen, hidbuf⟩ | rfl | ⟨n, v, rfl, hn⟩ := hcases
    · simp [hmodw, hbarh, hmargin, hidlen, hidbuf] at hchanged
    · exact .inl hscript
    · exact .inr ⟨n, v, hscript, hn⟩

end Sys2Proof.Machine

/-! The invariant (spec/10_state.md): it holds after reset, and every command, transaction and step keeps it. -/

namespace Sys2Proof.Machine

/-- After reset every register is 0 and no cell is written (R40). -/
theorem State.Sound.cleared (c : Config) (n : Nat) (ts : List Transaction) : (State.cleared c n ts).Sound where
  errRange := Nat.zero_le 9
  stickyBitZero := BitVec.getLsbD_zero
  resRange := .inl (by decide : 0 < 128)
  outidIdentifier := .inl rfl
  pixCanonical := Mem.wf_nil
  txtCanonical := Mem.wf_nil
  pixInside := nofun
  txtInside := nofun
  textAbsent := fun _ => ⟨rfl, rfl⟩

/-- Settles O46: `State.reset` is one of the cleared states. -/
theorem resetIsSound : Obligations.ResetIsSound := by
  unfold Obligations.ResetIsSound
  exact ⟨.cleared _ _ _, .cleared⟩

/-- Every command keeps a sound state sound: what it commits has the range, the size or the check digit that is
promised (R279, R280). -/
theorem State.Sound.exec {i : Instr} {s t : State} (h : s.Sound) (hexec : exec i s = .next t) : t.Sound := by
  rcases exec_cases hexec with ⟨k, rfl⟩ | ⟨-, v, rfl, hv⟩ | ⟨-, M, hM, rfl⟩ | ⟨-, M, hM, rfl⟩ | ⟨-, d, hd, rfl⟩ |
    ⟨-, x, hx, rfl⟩
  · exact h.raise k
  · exact (h.setRes hv).done
  · exact (h.setMatrix (encResult_fits hM).cells_length_le).done
  · exact (h.setMatrix (bmrResult_fits hM).cells_length_le).done
  · obtain ⟨-, -, -, -, -, -, hcheck⟩ := decResult_eq_ok.1 hd
    exact (h.setOutid ((valid_digitChars d).2 hcheck)).done
  · obtain ⟨hready, rfl⟩ := bmwResult_eq_ok_iff_ready.1 hx
    have ⟨hbmc, _⟩ := hready
    exact (h.setText hbmc (State.matrixText_fits hready)).done

/-- Every transaction keeps a sound state sound (R64). -/
theorem State.Sound.transact {tr : Transaction} {s t : State} (h : s.Sound) (htr : transact tr s = .next t) :
    t.Sound := by
  rcases transact_cases htr with ⟨v, rfl⟩ | ⟨n, v, -, -, rfl⟩ | ⟨n, v, r, -, -, hr, rfl⟩ |
    ⟨v, -, rfl | ⟨i, -, hexec⟩⟩ | ⟨a, v, -, ha, rfl⟩ | ⟨a, v, -, hbmc, ha, rfl⟩ | ⟨-, rfl⟩
  · exact h.answer v
  · exact h
  · exact h.writeReg hr v
  · exact h.raise .illegal
  · exact h.exec hexec
  · exact h.writePix ha _
  · exact h.writeTxt hbmc ha _
  · exact .cleared _ _ _

/-- Settles O45: a step is idle, or takes one transaction off the script. -/
theorem stepKeepsSound : Obligations.StepKeepsSound := by
  unfold Obligations.StepKeepsSound
  intro s t hs h
  obtain ⟨-, rfl⟩ | ⟨tr, rest, -, htr⟩ := step_cases h
  · exact hs
  · exact (hs.take rest).transact htr

end Sys2Proof.Machine
